-- ==== Sys2Proof/Word.lean ====
section
/-! DEFINITION. The word types of the FChip8 CORE (spec/00_scope.md R5, R6, R7): a memory cell and a general register
are 8 bits (CELL_BITS, REG_BITS), I, PC and a call-stack entry 16 bits (ADDR_BITS), an instruction field 4, 8 or 12. -/

namespace Sys2Proof

/-- A memory cell or an 8-bit register (R5, R7). -/
abbrev Byte := BitVec 8

/-- A 16-bit opcode, address register or call-stack entry (R5, R7, R45). -/
abbrev Word := BitVec 16

/-- A 4-bit opcode field (R46). -/
abbrev Nibble := BitVec 4

/-- The 12-bit address immediate NNN (R46, R48). -/
abbrev Addr12 := BitVec 12

/-- The number of a general register, 0..15 (R11). -/
abbrev Reg := Fin 16

end Sys2Proof
end

