-- ==== Sys2Proof/Machine/Flags.lean ====
section
/-! DEFINITION. The values that instructions write to VF as a flag (spec/10_state.md R12). -/

namespace Sys2Proof.Machine

/-- A boolean as a number: 1 for true, 0 for false (spec/00_scope.md R7). -/
def flagByte (c : Bool) : Byte := if c then 1 else 0

/-- Carry of 8XY4: 1 when the sum exceeds 255 (spec/42_alu.md R83). -/
def carryFlag (a b : Byte) : Byte := flagByte (decide (255 < a.toNat + b.toNat))

/-- No-borrow of a - b, strict: 1 when a > b, and 0 on equal operands (R84, R86). -/
def noBorrowFlag (a b : Byte) : Byte := flagByte (decide (b.toNat < a.toNat))

/-- The bit that a right shift by one shifts out: V & 1 (R85). -/
def shrFlag (a : Byte) : Byte := a &&& 1#8

/-- The bit that a left shift by one shifts out: V >> 7 (R87). -/
def shlFlag (a : Byte) : Byte := a >>> 7

end Sys2Proof.Machine
end

