-- ==== Sys2Proof/Syntax.lean ====
section
/-! DEFINITION. The instructions: one constructor per row of spec/opcode_table.json, with every field of the 16-bit word
that the row does not fix. A nibble that the spec calls "not examined" (the X of 0XE0 and 0XEE, the N of 5XYN and 9XYN:
R50, R51) is kept as an operand that no meaning reads, since FAULT_OP records the whole opcode (R114) and an encoder can
give back the word (assumption log 7). -/

namespace Sys2Proof

/-- The 34 instructions of the table (spec/30_encoding.md R49) and its four fallback rows of no-ops (R65). -/
inductive Instr where
  /-- CLS, 0XE0; X is not examined. -/
  | cls (x : Nibble)
  /-- RET, 0XEE; X is not examined. -/
  | ret (x : Nibble)
  /-- JP, 1NNN. -/
  | jp (nnn : Addr12)
  /-- CALL, 2NNN. -/
  | call (nnn : Addr12)
  /-- SE_IMM, 3XNN. -/
  | seImm (x : Reg) (nn : Byte)
  /-- SNE_IMM, 4XNN. -/
  | sneImm (x : Reg) (nn : Byte)
  /-- SE_REG, 5XYN; N is not examined. -/
  | seReg (x y : Reg) (n : Nibble)
  /-- LD_IMM, 6XNN. -/
  | ldImm (x : Reg) (nn : Byte)
  /-- ADD_IMM, 7XNN. -/
  | addImm (x : Reg) (nn : Byte)
  /-- LD_REG, 8XY0. -/
  | ldReg (x y : Reg)
  /-- OR, 8XY1. -/
  | orReg (x y : Reg)
  /-- AND, 8XY2. -/
  | andReg (x y : Reg)
  /-- XOR, 8XY3. -/
  | xorReg (x y : Reg)
  /-- ADD_REG, 8XY4. -/
  | addReg (x y : Reg)
  /-- SUB, 8XY5. -/
  | sub (x y : Reg)
  /-- SHR, 8XY6. -/
  | shr (x y : Reg)
  /-- SUBN, 8XY7. -/
  | subn (x y : Reg)
  /-- SHL, 8XYE. -/
  | shl (x y : Reg)
  /-- SNE_REG, 9XYN; N is not examined. -/
  | sneReg (x y : Reg) (n : Nibble)
  /-- LD_I, ANNN. -/
  | ldI (nnn : Addr12)
  /-- JP_V0, BNNN. -/
  | jpV0 (nnn : Addr12)
  /-- RND, CXNN. -/
  | rnd (x : Reg) (nn : Byte)
  /-- DRW, DXYN. -/
  | drw (x y : Reg) (n : Nibble)
  /-- SKP, EX9E. -/
  | skp (x : Reg)
  /-- SKNP, EXA1. -/
  | sknp (x : Reg)
  /-- LD_V_DT, FX07. -/
  | ldVDt (x : Reg)
  /-- LD_V_K, FX0A. -/
  | ldVK (x : Reg)
  /-- LD_DT_V, FX15. -/
  | ldDtV (x : Reg)
  /-- LD_ST_V, FX18. -/
  | ldStV (x : Reg)
  /-- ADD_I, FX1E. -/
  | addI (x : Reg)
  /-- LD_F, FX29. -/
  | ldF (x : Reg)
  /-- LD_B, FX33. -/
  | ldB (x : Reg)
  /-- LD_MEM_V, FX55. -/
  | ldMemV (x : Reg)
  /-- LD_V_MEM, FX65. -/
  | ldVMem (x : Reg)
  /-- SYS, 0NNN with NN other than E0 and EE: a no-op. -/
  | sys (nnn : Addr12)
  /-- NOP8, 8XYN with N in 8..D or F: a no-op. -/
  | nop8 (x y : Nibble) (n : Nibble)
  /-- NOPE, EXNN with NN other than 9E and A1: a no-op. -/
  | nopE (x : Nibble) (nn : Byte)
  /-- NOPF, FXNN with NN none of the nine sub-codes: a no-op. -/
  | nopF (x : Nibble) (nn : Byte)
  deriving DecidableEq, Repr

/-- One row of the opcode table: its mnemonic, the word `op` matches it when `op &&& mask = pattern`, and whether it is
a fallback row, which matches only when no other row does (the note under R49). -/
structure Row where
  mnemonic : String
  pattern  : Word
  mask     : Word
  fallback : Bool
  deriving DecidableEq, Repr

end Sys2Proof
end

