-- ==== Sys2Proof/WellFormed.lean ====
section
/-! DEFINITION. Which instructions are well-formed. Every operand of the 34 instructions may take any value of its field;
a fallback no-op must not carry a sub-code that names an instruction (spec/30_encoding.md R49, R52, R53, R54). -/

namespace Sys2Proof

/-- The sub-codes N of class 0x8 that are instructions (R52). -/
def isClass8SubCode (n : Nibble) : Bool :=
  [0x0#4, 0x1#4, 0x2#4, 0x3#4, 0x4#4, 0x5#4, 0x6#4, 0x7#4, 0xE#4].contains n

/-- The sub-codes NN of class 0x0 that are instructions (R50). -/
def isClass0SubCode (nn : Byte) : Bool := [0xE0#8, 0xEE#8].contains nn

/-- The sub-codes NN of class 0xE that are instructions (R53). -/
def isClassESubCode (nn : Byte) : Bool := [0x9E#8, 0xA1#8].contains nn

/-- The sub-codes NN of class 0xF that are instructions (R54). -/
def isClassFSubCode (nn : Byte) : Bool :=
  [0x07#8, 0x0A#8, 0x15#8, 0x18#8, 0x1E#8, 0x29#8, 0x33#8, 0x55#8, 0x65#8].contains nn

/-- The well-formedness check: a no-op's sub-code is none of its class's instructions (R65). -/
def Instr.wf : Instr → Bool
  | .sys nnn => !isClass0SubCode (nnn.setWidth 8)
  | .nop8 _ _ n => !isClass8SubCode n
  | .nopE _ nn => !isClassESubCode nn
  | .nopF _ nn => !isClassFSubCode nn
  | .cls _ | .ret _ | .jp _ | .call _ | .seImm _ _ | .sneImm _ _ | .seReg _ _ _ | .ldImm _ _ | .addImm _ _
  | .ldReg _ _ | .orReg _ _ | .andReg _ _ | .xorReg _ _ | .addReg _ _ | .sub _ _ | .shr _ _ | .subn _ _
  | .shl _ _ | .sneReg _ _ _ | .ldI _ | .jpV0 _ | .rnd _ _ | .drw _ _ _ | .skp _ | .sknp _ | .ldVDt _
  | .ldVK _ | .ldDtV _ | .ldStV _ | .addI _ | .ldF _ | .ldB _ | .ldMemV _ | .ldVMem _ => true

end Sys2Proof
end

