-- ==== Sys2Proof/Decode.lean ====
section
/-! DEFINITION. The decoder (spec/30_encoding.md R45–R56), total on every 16-bit word and on every list of bytes, and
after it the opcode table as data and the encoder, both written from the same table of the spec. -/

namespace Sys2Proof

/-! ### The six fields of an opcode (R46; the notation v[hi:lo] of R6) -/

/-- C, the class, op[15:12]. -/
def fieldC (op : Word) : Nibble := op.extractLsb' 12 4

/-- X, op[11:8]. -/
def fieldX (op : Word) : Nibble := op.extractLsb' 8 4

/-- Y, op[7:4]. -/
def fieldY (op : Word) : Nibble := op.extractLsb' 4 4

/-- N, op[3:0]. -/
def fieldN (op : Word) : Nibble := op.extractLsb' 0 4

/-- NN, op[7:0]. -/
def fieldNN (op : Word) : Byte := op.extractLsb' 0 8

/-- NNN, op[11:0]. -/
def fieldNNN (op : Word) : Addr12 := op.extractLsb' 0 12

/-- The general register that a field names (R48). -/
def regOf (f : Nibble) : Reg := f.toFin

/-! ### Decoding -/

/-- Class 0x0: NN alone selects (R50). -/
def decodeClass0 (op : Word) : Instr :=
  match fieldNN op with
  | 0xE0#8 => .cls (fieldX op)
  | 0xEE#8 => .ret (fieldX op)
  | _ => .sys (fieldNNN op)

/-- Class 0x8: N selects (R52). -/
def decodeClass8 (op : Word) : Instr :=
  match fieldN op with
  | 0x0#4 => .ldReg (regOf (fieldX op)) (regOf (fieldY op))
  | 0x1#4 => .orReg (regOf (fieldX op)) (regOf (fieldY op))
  | 0x2#4 => .andReg (regOf (fieldX op)) (regOf (fieldY op))
  | 0x3#4 => .xorReg (regOf (fieldX op)) (regOf (fieldY op))
  | 0x4#4 => .addReg (regOf (fieldX op)) (regOf (fieldY op))
  | 0x5#4 => .sub (regOf (fieldX op)) (regOf (fieldY op))
  | 0x6#4 => .shr (regOf (fieldX op)) (regOf (fieldY op))
  | 0x7#4 => .subn (regOf (fieldX op)) (regOf (fieldY op))
  | 0xE#4 => .shl (regOf (fieldX op)) (regOf (fieldY op))
  | n => .nop8 (fieldX op) (fieldY op) n

/-- Class 0xE: NN selects (R53). -/
def decodeClassE (op : Word) : Instr :=
  match fieldNN op with
  | 0x9E#8 => .skp (regOf (fieldX op))
  | 0xA1#8 => .sknp (regOf (fieldX op))
  | nn => .nopE (fieldX op) nn

/-- Class 0xF: NN selects (R54). -/
def decodeClassF (op : Word) : Instr :=
  match fieldNN op with
  | 0x07#8 => .ldVDt (regOf (fieldX op))
  | 0x0A#8 => .ldVK (regOf (fieldX op))
  | 0x15#8 => .ldDtV (regOf (fieldX op))
  | 0x18#8 => .ldStV (regOf (fieldX op))
  | 0x1E#8 => .addI (regOf (fieldX op))
  | 0x29#8 => .ldF (regOf (fieldX op))
  | 0x33#8 => .ldB (regOf (fieldX op))
  | 0x55#8 => .ldMemV (regOf (fieldX op))
  | 0x65#8 => .ldVMem (regOf (fieldX op))
  | nn => .nopF (fieldX op) nn

/-- The decoder: a pure, total function of the 16-bit word (R47, R49, R55). The last arm is class 0xF. -/
def decode (op : Word) : Instr :=
  match fieldC op with
  | 0x0#4 => decodeClass0 op
  | 0x1#4 => .jp (fieldNNN op)
  | 0x2#4 => .call (fieldNNN op)
  | 0x3#4 => .seImm (regOf (fieldX op)) (fieldNN op)
  | 0x4#4 => .sneImm (regOf (fieldX op)) (fieldNN op)
  | 0x5#4 => .seReg (regOf (fieldX op)) (regOf (fieldY op)) (fieldN op)
  | 0x6#4 => .ldImm (regOf (fieldX op)) (fieldNN op)
  | 0x7#4 => .addImm (regOf (fieldX op)) (fieldNN op)
  | 0x8#4 => decodeClass8 op
  | 0x9#4 => .sneReg (regOf (fieldX op)) (regOf (fieldY op)) (fieldN op)
  | 0xA#4 => .ldI (fieldNNN op)
  | 0xB#4 => .jpV0 (fieldNNN op)
  | 0xC#4 => .rnd (regOf (fieldX op)) (fieldNN op)
  | 0xD#4 => .drw (regOf (fieldX op)) (regOf (fieldY op)) (fieldN op)
  | 0xE#4 => decodeClassE op
  | _ => decodeClassF op

/-- The 16-bit word of two consecutive bytes, the byte at the lower address being the high byte (R35, R60). -/
def wordOfBytes (hi lo : Byte) : Word := BitVec.ofNat 16 (hi.toNat * 256 + lo.toNat)

/-- The byte of a word that lies at the lower address (R35). -/
def highByte (op : Word) : Byte := op.extractLsb' 8 8

/-- The byte of a word that lies at the higher address (R35). -/
def lowByte (op : Word) : Byte := op.extractLsb' 0 8

/-- Why a list of bytes holds no instruction. No word is rejected (R55): only a list too short to hold one is. -/
inductive DecodeError where
  /-- Fewer than two bytes: every instruction is one 16-bit opcode (R45, R56). Safe: the machine never decodes so few,
  since a fetch that would leave memory raises FETCH_RANGE (R38). -/
  | truncated
  deriving DecidableEq, Repr

/-- The decoder on bytes as the hardware stores them: the first instruction and the bytes after it. -/
def decodeBytes : List Byte → Except DecodeError (Instr × List Byte)
  | hi :: lo :: rest => .ok (decode (wordOfBytes hi lo), rest)
  | [_] => .error .truncated
  | [] => .error .truncated

/-- The bytes, lowest address first, of the instruction whose bits are `w` (assumption log 13). -/
def tableWordBytes (nbits w : Nat) : List Byte :=
  let op : Word := BitVec.ofNat 16 (w % 2 ^ min nbits 16)
  [highByte op, lowByte op]

/-- What the decoder reads from the instruction whose bits are `w`, numbered as spec/opcode_table.json numbers them.
An instruction has 16 bits, so a row of more bits is refused (assumption log 13). -/
def decodeTableWord (nbits w : Nat) : Option Instr :=
  if nbits ≤ 16 then
    match decodeBytes (tableWordBytes nbits w) with
    | .ok (i, _) => some i
    | .error _ => none
  else none

/-! ### The opcode table as data (spec/opcode_table.json, in its order) -/

/-- The row of the table that an instruction's constructor stands for. -/
def rowOf : Instr → Row
  | .cls _ => ⟨"CLS", 0x00E0, 0xF0FF, false⟩
  | .ret _ => ⟨"RET", 0x00EE, 0xF0FF, false⟩
  | .jp _ => ⟨"JP", 0x1000, 0xF000, false⟩
  | .call _ => ⟨"CALL", 0x2000, 0xF000, false⟩
  | .seImm _ _ => ⟨"SE_IMM", 0x3000, 0xF000, false⟩
  | .sneImm _ _ => ⟨"SNE_IMM", 0x4000, 0xF000, false⟩
  | .seReg _ _ _ => ⟨"SE_REG", 0x5000, 0xF000, false⟩
  | .ldImm _ _ => ⟨"LD_IMM", 0x6000, 0xF000, false⟩
  | .addImm _ _ => ⟨"ADD_IMM", 0x7000, 0xF000, false⟩
  | .ldReg _ _ => ⟨"LD_REG", 0x8000, 0xF00F, false⟩
  | .orReg _ _ => ⟨"OR", 0x8001, 0xF00F, false⟩
  | .andReg _ _ => ⟨"AND", 0x8002, 0xF00F, false⟩
  | .xorReg _ _ => ⟨"XOR", 0x8003, 0xF00F, false⟩
  | .addReg _ _ => ⟨"ADD_REG", 0x8004, 0xF00F, false⟩
  | .sub _ _ => ⟨"SUB", 0x8005, 0xF00F, false⟩
  | .shr _ _ => ⟨"SHR", 0x8006, 0xF00F, false⟩
  | .subn _ _ => ⟨"SUBN", 0x8007, 0xF00F, false⟩
  | .shl _ _ => ⟨"SHL", 0x800E, 0xF00F, false⟩
  | .sneReg _ _ _ => ⟨"SNE_REG", 0x9000, 0xF000, false⟩
  | .ldI _ => ⟨"LD_I", 0xA000, 0xF000, false⟩
  | .jpV0 _ => ⟨"JP_V0", 0xB000, 0xF000, false⟩
  | .rnd _ _ => ⟨"RND", 0xC000, 0xF000, false⟩
  | .drw _ _ _ => ⟨"DRW", 0xD000, 0xF000, false⟩
  | .skp _ => ⟨"SKP", 0xE09E, 0xF0FF, false⟩
  | .sknp _ => ⟨"SKNP", 0xE0A1, 0xF0FF, false⟩
  | .ldVDt _ => ⟨"LD_V_DT", 0xF007, 0xF0FF, false⟩
  | .ldVK _ => ⟨"LD_V_K", 0xF00A, 0xF0FF, false⟩
  | .ldDtV _ => ⟨"LD_DT_V", 0xF015, 0xF0FF, false⟩
  | .ldStV _ => ⟨"LD_ST_V", 0xF018, 0xF0FF, false⟩
  | .addI _ => ⟨"ADD_I", 0xF01E, 0xF0FF, false⟩
  | .ldF _ => ⟨"LD_F", 0xF029, 0xF0FF, false⟩
  | .ldB _ => ⟨"LD_B", 0xF033, 0xF0FF, false⟩
  | .ldMemV _ => ⟨"LD_MEM_V", 0xF055, 0xF0FF, false⟩
  | .ldVMem _ => ⟨"LD_V_MEM", 0xF065, 0xF0FF, false⟩
  | .sys _ => ⟨"SYS", 0x0000, 0xF000, true⟩
  | .nop8 _ _ _ => ⟨"NOP8", 0x8000, 0xF000, true⟩
  | .nopE _ _ => ⟨"NOPE", 0xE000, 0xF000, true⟩
  | .nopF _ _ => ⟨"NOPF", 0xF000, 0xF000, true⟩

/-- The table: the row of one instruction of each constructor, the operands playing no part. -/
def opcodeTable : List Row :=
  List.map rowOf ([.cls 0, .ret 0, .jp 0, .call 0, .seImm 0 0, .sneImm 0 0, .seReg 0 0 0, .ldImm 0 0, .addImm 0 0] ++
    [.ldReg 0 0, .orReg 0 0, .andReg 0 0, .xorReg 0 0, .addReg 0 0, .sub 0 0, .shr 0 0, .subn 0 0, .shl 0 0] ++
    [.sneReg 0 0 0, .ldI 0, .jpV0 0, .rnd 0 0, .drw 0 0 0, .skp 0, .sknp 0, .ldVDt 0, .ldVK 0, .ldDtV 0] ++
    [.ldStV 0, .addI 0, .ldF 0, .ldB 0, .ldMemV 0, .ldVMem 0, .sys 0, .nop8 0 0 0, .nopE 0 0, .nopF 0 0])

/-- The word matches the row's fixed bits. -/
def Row.matchesWord (r : Row) (op : Word) : Bool := op &&& r.mask == r.pattern

/-! ### Encoding -/

/-- The word with class C and nibbles X, Y, N: op = C*4096 + X*256 + Y*16 + N (R6, R46). -/
def packXYN (c x y n : Nat) : Word := BitVec.ofNat 16 (c * 4096 + x * 256 + y * 16 + n)

/-- The word with class C, nibble X and low byte NN: NN = Y*16 + N (R46). -/
def packXNN (c x : Nat) (nn : Byte) : Word := BitVec.ofNat 16 (c * 4096 + x * 256 + nn.toNat)

/-- The word with class C and low twelve bits NNN: NNN = X*256 + NN (R46). -/
def packNNN (c : Nat) (nnn : Addr12) : Word := BitVec.ofNat 16 (c * 4096 + nnn.toNat)

/-- The encoder: the opcode of a well-formed instruction, from the map of R49. -/
def encode : Instr → Word
  | .cls x => packXNN 0x0 x.toNat 0xE0
  | .ret x => packXNN 0x0 x.toNat 0xEE
  | .jp nnn => packNNN 0x1 nnn
  | .call nnn => packNNN 0x2 nnn
  | .seImm x nn => packXNN 0x3 x.val nn
  | .sneImm x nn => packXNN 0x4 x.val nn
  | .seReg x y n => packXYN 0x5 x.val y.val n.toNat
  | .ldImm x nn => packXNN 0x6 x.val nn
  | .addImm x nn => packXNN 0x7 x.val nn
  | .ldReg x y => packXYN 0x8 x.val y.val 0x0
  | .orReg x y => packXYN 0x8 x.val y.val 0x1
  | .andReg x y => packXYN 0x8 x.val y.val 0x2
  | .xorReg x y => packXYN 0x8 x.val y.val 0x3
  | .addReg x y => packXYN 0x8 x.val y.val 0x4
  | .sub x y => packXYN 0x8 x.val y.val 0x5
  | .shr x y => packXYN 0x8 x.val y.val 0x6
  | .subn x y => packXYN 0x8 x.val y.val 0x7
  | .shl x y => packXYN 0x8 x.val y.val 0xE
  | .sneReg x y n => packXYN 0x9 x.val y.val n.toNat
  | .ldI nnn => packNNN 0xA nnn
  | .jpV0 nnn => packNNN 0xB nnn
  | .rnd x nn => packXNN 0xC x.val nn
  | .drw x y n => packXYN 0xD x.val y.val n.toNat
  | .skp x => packXNN 0xE x.val 0x9E
  | .sknp x => packXNN 0xE x.val 0xA1
  | .ldVDt x => packXNN 0xF x.val 0x07
  | .ldVK x => packXNN 0xF x.val 0x0A
  | .ldDtV x => packXNN 0xF x.val 0x15
  | .ldStV x => packXNN 0xF x.val 0x18
  | .addI x => packXNN 0xF x.val 0x1E
  | .ldF x => packXNN 0xF x.val 0x29
  | .ldB x => packXNN 0xF x.val 0x33
  | .ldMemV x => packXNN 0xF x.val 0x55
  | .ldVMem x => packXNN 0xF x.val 0x65
  | .sys nnn => packNNN 0x0 nnn
  | .nop8 x y n => packXYN 0x8 x.toNat y.toNat n.toNat
  | .nopE x nn => packXNN 0xE x.toNat nn
  | .nopF x nn => packXNN 0xF x.toNat nn

end Sys2Proof
end

