-- ==== Sys2Proof/Config.lean ====
section
/-! DEFINITION. What the implementation fixes: the sizes of spec/00_scope.md R5, as named constants, and the one free
value of the spec, the random byte (R25, decision D16 of spec/92_eei_decisions.md). -/

namespace Sys2Proof.Config

/-- MEM_SIZE: bytes of memory, addresses 0x000..0xFFF (R5, R31). -/
def memSize : Nat := 4096

/-- STACK_DEPTH: entries of the call stack (R5, R16). -/
def stackDepth : Nat := 16

/-- DISP_W: columns of the frame buffer (R5, R21). -/
def dispW : Nat := 64

/-- DISP_H: rows of the frame buffer (R5, R21). -/
def dispH : Nat := 32

/-- SPRITE_W: columns of a sprite (R5, R99). -/
def spriteW : Nat := 8

/-- NKEYS: keys of the keypad (R5, R23). -/
def nKeys : Nat := 16

/-- GLYPH_BYTES: bytes of one font glyph (R5, R128). -/
def glyphBytes : Nat := 5

/-- LOAD_BASE: address of the first program byte (R5, R130). -/
def loadBase : Nat := 0x200

/-- MAX_ROM = MEM_SIZE - LOAD_BASE (R5, R131). -/
def maxRom : Nat := 3584

/-- FREE VALUE (assumption log 1): the `rnd` input that the n-th executed CXNN receives. R25 lays no law on it, so it has
no body: a claim about it holds for every byte and for every stream of bytes. -/
opaque rnd : Nat → Byte

end Sys2Proof.Config
end

