-- ==== Sys2Proof/Machine/State.lean ====
section
/-! DEFINITION. The state of the FChip8 CORE (spec/10_state.md R11–R30), all of it plain data, the reasons a step may
stop, and the state right after RESET (spec/70_reset_and_hazards.md R127). -/

namespace Sys2Proof.Machine

/-- MEM (R20): the cells that differ from what an unlisted address reads as (`Memory.unlisted`, the contents RESET
leaves), as (address, byte) pairs with strictly rising addresses (assumption log 8). -/
abbrev Memory := List Host.Cell

/-- DISP (R21): 32 rows of 64 one-bit cells. DISP[y*64 + x] is bit x of row y (assumption log 12). -/
abbrev Display := Vector (BitVec 64) 32

/-- The machine. R30 lists exactly these elements but for the last field, which is the model's own. -/
structure State where
  /-- V[0..15] (R11); V[15] is VF (R12). -/
  v : Vector Byte 16
  /-- I, the index register (R13). -/
  i : Word
  /-- PC (R14). -/
  pc : Word
  /-- SP, the number of return addresses on the call stack (R15). -/
  sp : Byte
  /-- STACK[0..15], the call stack (R16). -/
  stack : Vector Word 16
  /-- DT, the delay timer (R17). -/
  dt : Byte
  /-- ST, the sound timer (R18). -/
  st : Byte
  /-- MEM[0..4095] (R20). -/
  mem : Memory
  /-- DISP[0..2047], the frame buffer (R21). -/
  disp : Display
  /-- DIRTY, the "needs redraw" flag (R22). -/
  dirty : Bool
  /-- KEY[0..15], the keypad (R23). -/
  key : Vector Bool 16
  /-- FAULT_CODE (R19, R112): 0 while the core runs, else the cause, and the core is halted. -/
  faultCode : Byte
  /-- FAULT_PC (R19, R114). -/
  faultPc : Word
  /-- FAULT_OP (R19, R114). -/
  faultOp : Word
  /-- FAULT_INFO (R19, R114). -/
  faultInfo : Word
  /-- The model's own: how many `rnd` inputs executed CXNN instructions have consumed (assumption log 1). -/
  rndCount : Nat
  deriving DecidableEq, Repr

/-- Why the model stops. The spec's own faults are no stop of the model: they write the fault latch and answer a next
state (R114, assumption log 4). -/
inductive Fault where
  /-- Raised by CALL and RET in a state whose SP is above 16, where STACK[SP] or STACK[SP-1] does not exist. R15 says SP
  never leaves 0..16, and no step from a state that meets the invariant raises it. Safe: the model stops where the spec
  gives no behaviour (assumption log 5). -/
  | stackPointerAbove16
  deriving DecidableEq, Repr

/-- Why the model gives an instruction no meaning. -/
inductive Refusal where
  /-- Raised by an arm of `exec` whose instruction has no meaning yet. Safe. No arm raises it: every instruction of the
  table is modelled. -/
  | notModelled (mnemonic : String)
  deriving DecidableEq, Repr

/-- The outcome of an instruction or a step. -/
abbrev Result := Host.Outcome State Fault Refusal

/-- The machine right after RESET with the default FONT (R127): every element 0, but PC = 0x200 and the font bytes in
MEM[0x000..0x04F], which an unlisted address reads as (assumption log 2). The model's own counter starts at 0. -/
def State.reset : State where
  v := Vector.replicate 16 0
  i := 0
  pc := 0x200
  sp := 0
  stack := Vector.replicate 16 0
  dt := 0
  st := 0
  mem := []
  disp := Vector.replicate 32 0
  dirty := false
  key := Vector.replicate 16 false
  faultCode := 0
  faultPc := 0
  faultOp := 0
  faultInfo := 0
  rndCount := 0

end Sys2Proof.Machine
end

