-- ==== Sys2Proof/Machine/Memory.lean ====
section
/-! DEFINITION. The memory image and its primitives (spec/20_memory.md R31–R36), and the default FONT
(spec/70_reset_and_hazards.md R129). -/

namespace Sys2Proof.Machine

/-- The default of the parameter FONT: glyphs 0 to F, five bytes each (the table of R129; assumption log 2). -/
def defaultFont : List Byte :=
  [0xF0, 0x90, 0x90, 0x90, 0xF0] ++ [0x20, 0x60, 0x20, 0x20, 0x70] ++ [0xF0, 0x10, 0xF0, 0x80, 0xF0] ++
  [0xF0, 0x10, 0xF0, 0x10, 0xF0] ++ [0x90, 0x90, 0xF0, 0x10, 0x10] ++ [0xF0, 0x80, 0xF0, 0x10, 0xF0] ++
  [0xF0, 0x80, 0xF0, 0x90, 0xF0] ++ [0xF0, 0x10, 0x20, 0x40, 0x40] ++ [0xF0, 0x90, 0xF0, 0x90, 0xF0] ++
  [0xF0, 0x90, 0xF0, 0x10, 0xF0] ++ [0xF0, 0x90, 0xF0, 0x90, 0x90] ++ [0xE0, 0x90, 0xE0, 0x90, 0xE0] ++
  [0xF0, 0x80, 0x80, 0x80, 0xF0] ++ [0xE0, 0x90, 0x90, 0x90, 0xE0] ++ [0xF0, 0x80, 0xF0, 0x80, 0xF0] ++
  [0xF0, 0x80, 0xF0, 0x80, 0x80]

/-- What an address that the memory does not list reads as: the contents that RESET leaves, the default FONT at
0x000..0x04F and 0 elsewhere (R127, R128). -/
def Memory.unlisted (a : Nat) : Byte := defaultFont.getD a 0

/-- `MemRead(a, 1)` (R36): the byte at address `a`. -/
def Memory.read : Memory → Nat → Byte
  | [], a => Memory.unlisted a
  | (b, v) :: m, a => if a = b then v else Memory.read m a

/-- The list with the byte at `a` replaced, kept in canonical form: an entry in its place, or no entry when the byte is
what an unlisted address reads as. -/
def Memory.put : Memory → Nat → Byte → Memory
  | [], a, v => if v = Memory.unlisted a then [] else [(a, v)]
  | (b, w) :: m, a, v =>
    if a < b then (if v = Memory.unlisted a then (b, w) :: m else (a, v) :: (b, w) :: m)
    else if a = b then (if v = Memory.unlisted a then m else (a, v) :: m)
    else (b, w) :: Memory.put m a v

/-- `MemWrite(a, 1, v)` (R36). An address outside 0..0xFFF never reaches it, since every instruction checks its range
first (R37, R38); the primitive itself leaves memory as it is there (assumption log 8). -/
def Memory.write (m : Memory) (a : Nat) (v : Byte) : Memory :=
  if a < Config.memSize then m.put a v else m

/-- A sequence of one-byte writes in ascending address order (R39). -/
def Memory.writeBytes (m : Memory) (a : Nat) : List Byte → Memory
  | [] => m
  | b :: bs => Memory.writeBytes (m.write a b) (a + 1) bs

/-- The canonical form from address `lo` on: rising addresses inside 0..0xFFF, no entry equal to what it would read
as unlisted. -/
def Memory.wfFrom : Nat → Memory → Bool
  | _, [] => true
  | lo, (a, v) :: m =>
    decide (lo ≤ a) && decide (a < Config.memSize) && decide (v ≠ Memory.unlisted a) && Memory.wfFrom (a + 1) m

/-- The canonical form of a memory. -/
def Memory.wf (m : Memory) : Bool := Memory.wfFrom 0 m

end Sys2Proof.Machine
end

