-- ==== Sys2Proof/Machine/Ops.lean ====
section
/-! DEFINITION. The named operations that every meaning is built from: registers, PC, call stack, the opcode fetch,
fault entry and the timer tick. -/

namespace Sys2Proof.Machine

/-! ### General registers (spec/10_state.md R11, R12) -/

/-- The number of VF, the flag register (R12). -/
def vf : Reg := 15

/-- `V[x]` (R8). -/
def State.reg (s : State) (x : Reg) : Byte := s.v[x.val]

/-- `V[x] <- b` (R8). -/
def State.setReg (s : State) (x : Reg) (b : Byte) : State := { s with v := s.v.set x.val b }

/-- `I <- a` (R13). -/
def State.setI (s : State) (a : Word) : State := { s with i := a }

/-! ### Program counter (R14) -/

/-- `PC <- a` (R8). -/
def State.setPc (s : State) (a : Word) : State := { s with pc := a }

/-- The advance right after the fetch: `PC <- (pc0 + 2) mod 65536` (spec/40_step_cycle.md R61). -/
def State.advance (s : State) : State := s.setPc (s.pc + 2)

/-- A skip on the provisional PC (spec/41_flow.md R71): `if c then PC <- (PC + 2) mod 65536`. -/
def State.skipIf (s : State) (c : Bool) : State := if c then s.setPc (s.pc + 2) else s

/-! ### Timers (R17, R18) -/

/-- `DT <- b`. -/
def State.setDt (s : State) (b : Byte) : State := { s with dt := b }

/-- `ST <- b`. -/
def State.setSt (s : State) (b : Byte) : State := { s with st := b }

/-- One timer's tick: a timer at 0 stays at 0 (spec/60_exceptions.md R121). -/
def tickDown (b : Byte) : Byte := if b = 0 then 0 else b - 1

/-- The timer tick unit (R121). -/
def State.tick (s : State) : State := (s.setDt (tickDown s.dt)).setSt (tickDown s.st)

/-- SOUND, an output and no state: whether ST is nonzero (R24). -/
def State.sound (s : State) : Bool := s.st != 0

/-! ### Memory, frame buffer, random input -/

/-- The memory after an instruction's writes. -/
def State.setMem (s : State) (m : Memory) : State := { s with mem := m }

/-- The frame buffer after CLS or DXYN, which set DIRTY (spec/44_display.md R103). -/
def State.setScreen (s : State) (d : Display) : State := { s with disp := d, dirty := true }

/-- The model's count of consumed `rnd` inputs goes up by one (assumption log 1). -/
def State.countRnd (s : State) : State := { s with rndCount := s.rndCount + 1 }

/-! ### Call stack (R15, R16) -/

/-- Push of the provisional PC: `STACK[SP] <- PC; SP <- SP + 1` (spec/41_flow.md R70), where STACK[SP] exists. -/
def State.pushReturn (s : State) : Option State :=
  if h : s.sp.toNat < 16 then some { s with stack := s.stack.set s.sp.toNat s.pc, sp := s.sp + 1 } else none

/-- Pop: `SP <- SP - 1; PC <- STACK[SP]` (R69), where that entry exists. The entry keeps its value (R16). -/
def State.popReturn (s : State) : Option State :=
  if h : (s.sp - 1).toNat < 16 then some { s with sp := s.sp - 1, pc := s.stack[(s.sp - 1).toNat] } else none

/-! ### Fetch (spec/40_step_cycle.md R60, spec/20_memory.md R35, R38) -/

/-- The fetch stays inside memory: pc0 + 1 ≤ 0xFFF (R38). -/
def State.canFetch (s : State) : Bool := decide (s.pc.toNat + 1 ≤ 0xFFF)

/-- The opcode at PC, big-endian. -/
def State.fetchWord (s : State) : Word :=
  wordOfBytes (s.mem.read s.pc.toNat) (s.mem.read (s.pc.toNat + 1))

/-! ### Faults (spec/60_exceptions.md R111–R118) -/

/-- The causes of R112. -/
inductive Cause where
  | stackOverflow
  | stackUnderflow
  | fetchRange
  | memRange
  | keyRange
  deriving DecidableEq, Repr

/-- The value of FAULT_CODE for a cause (R112). -/
def causeCode : Cause → Byte
  | .stackOverflow => 1
  | .stackUnderflow => 2
  | .fetchRange => 3
  | .memRange => 4
  | .keyRange => 5

/-- Fault entry (R114) on the state before the step, whose PC is pc0: the fault latch is written and nothing else. There
is no vector and no handler, and no return from a fault but RESET (R117). -/
def State.takeFault (s : State) (c : Cause) (info op : Word) : State :=
  { s with faultCode := causeCode c, faultPc := s.pc, faultOp := op, faultInfo := info }

/-- `raise Fault(code, info)` by the instruction `i` (R8, R64): the step commits fault entry only. -/
def raise (c : Cause) (info : Word) (i : Instr) (s : State) : Result := .next (s.takeFault c info (encode i))

/-- The core is halted: a fault has been latched (R116). -/
def State.halted (s : State) : Bool := s.faultCode != 0

/-- The end of a step after its instruction (R64, R66): the timers tick, unless the instruction raised a fault. -/
def finishStep : Result → Result
  | .next t => .next (if t.halted then t else t.tick)
  | .fault f => .fault f
  | .refused r => .refused r

end Sys2Proof.Machine
end

