-- ==== Sys2Proof/Machine/Alu.lean ====
section
/-! DEFINITION. Register loads and the ALU (spec/42_alu.md R77–R90). Statements run in the order written, each on the
state the one before it left (spec/00_scope.md R9), which fixes every case where X or Y is 15 (decision D3). -/

namespace Sys2Proof.Machine

/-- LD V[x], NN, 6XNN (R77). -/
def execLdImm (x : Reg) (nn : Byte) (s : State) : Result := .next (s.advance.setReg x nn)

/-- ADD V[x], NN, 7XNN: no carry is reported (R78). -/
def execAddImm (x : Reg) (nn : Byte) (s : State) : Result := .next (s.advance.setReg x (s.reg x + nn))

/-- LD V[x], V[y], 8XY0 (R79). -/
def execLdReg (x y : Reg) (s : State) : Result := .next (s.advance.setReg x (s.reg y))

/-- OR V[x], V[y], 8XY1: VF is not reset (R80). -/
def execOr (x y : Reg) (s : State) : Result := .next (s.advance.setReg x (s.reg x ||| s.reg y))

/-- AND V[x], V[y], 8XY2 (R81). -/
def execAnd (x y : Reg) (s : State) : Result := .next (s.advance.setReg x (s.reg x &&& s.reg y))

/-- XOR V[x], V[y], 8XY3 (R82). -/
def execXor (x y : Reg) (s : State) : Result := .next (s.advance.setReg x (s.reg x ^^^ s.reg y))

/-- The shape of 8XY4 to 8XYE: VF takes the flag computed from V[x] and V[y], and then V[x] takes the result computed
from V[x] and V[y] as they are after that write (R9, R83–R87). -/
def State.flagThenResult (s : State) (x y : Reg) (flag result : Byte → Byte → Byte) : State :=
  let t := s.setReg vf (flag (s.reg x) (s.reg y))
  t.setReg x (result (t.reg x) (t.reg y))

/-- ADD V[x], V[y], 8XY4 (R83). -/
def execAddReg (x y : Reg) (s : State) : Result :=
  .next (s.advance.flagThenResult x y carryFlag fun a b => a + b)

/-- SUB V[x], V[y], 8XY5 (R84). -/
def execSub (x y : Reg) (s : State) : Result :=
  .next (s.advance.flagThenResult x y noBorrowFlag fun a b => a - b)

/-- SHR V[x], V[y], 8XY6: V[y] is not used (R85). -/
def execShr (x y : Reg) (s : State) : Result :=
  .next (s.advance.flagThenResult x y (fun a _ => shrFlag a) fun a _ => a >>> 1)

/-- SUBN V[x], V[y], 8XY7 (R86). -/
def execSubn (x y : Reg) (s : State) : Result :=
  .next (s.advance.flagThenResult x y (fun a b => noBorrowFlag b a) fun a b => b - a)

/-- SHL V[x], V[y], 8XYE: V[y] is not used (R87). -/
def execShl (x y : Reg) (s : State) : Result :=
  .next (s.advance.flagThenResult x y (fun a _ => shlFlag a) fun a _ => a <<< 1)

/-- RND V[x], NN, CXNN, with the step's `rnd` input as an argument: `V[x] <- rnd & NN` (R88). -/
def rndWith (input : Byte) (x : Reg) (nn : Byte) (s : State) : State := s.advance.setReg x (input &&& nn)

/-- RND V[x], NN, CXNN: the `rnd` input is the free value that the model's counter selects (R25, assumption log 1). -/
def execRnd (x : Reg) (nn : Byte) (s : State) : Result := .next (rndWith (Config.rnd s.rndCount) x nn s).countRnd

end Sys2Proof.Machine
end

