-- ==== Sys2Proof/Machine/Operands.lean ====
section
/-! DEFINITION. The operand forms: zero-extended immediates, data addresses and their range check, glyph addresses,
decimal digits, blocks of registers and the keypad entry a register selects. -/

namespace Sys2Proof.Machine

/-- `zext_16(NNN)` (spec/00_scope.md R7, spec/30_encoding.md R48). -/
def zext16 (nnn : Addr12) : Word := nnn.setWidth 16

/-- A byte widened to 16 bits with zero bits (R7). -/
def byteToWord (b : Byte) : Word := b.setWidth 16

/-- The address of byte `k` of a data access at I: the integer I + k, with no wrap (spec/20_memory.md R37). -/
def State.dataAddr (s : State) (k : Nat) : Nat := s.i.toNat + k

/-- An access of `n` bytes at I would leave memory: it touches a byte and the last one lies above 0xFFF (R37). -/
def State.outOfRange (s : State) (n : Nat) : Bool := decide (0 < n ∧ 0xFFF < s.i.toNat + n - 1)

/-- The value FX29 gives I: V[X] * 5, with V[X] not reduced to its low nibble (spec/43_index_memory.md R93). -/
def glyphAddr (b : Byte) : Word := BitVec.ofNat 16 (b.toNat * Config.glyphBytes)

/-- The hundreds, tens and units digits of a byte, in the order FX33 stores them (R94). -/
def decimalDigits (b : Byte) : List Byte :=
  [BitVec.ofNat 8 (b.toNat / 100), BitVec.ofNat 8 (b.toNat / 10 % 10), BitVec.ofNat 8 (b.toNat % 10)]

/-- V[0], ..., V[x], in the order FX55 stores them (R95). -/
def State.regBlock (s : State) (x : Reg) : List Byte := s.v.toList.take (x.val + 1)

/-- `for k in 0 .. x: V[k] <- MemRead(I + k, 1)` (R96). -/
def State.loadRegs (s : State) (x : Reg) : State :=
  { s with v := Vector.ofFn fun k : Fin 16 => if k.val ≤ x.val then s.mem.read (s.dataAddr k.val) else s.reg k }

/-- `KEY[k]` where k is at most 15; there is no other entry (spec/10_state.md R23). -/
def State.keyAt (s : State) (k : Byte) : Option Bool :=
  if h : k.toNat < 16 then some s.key[k.toNat] else none

end Sys2Proof.Machine
end

