-- ==== Sys2Proof/Machine/Flow.lean ====
section
/-! DEFINITION. Control transfer and skips (spec/41_flow.md R68–R76). Each meaning runs on the state at the start of the
step, whose PC is pc0; `advance` gives it the provisional PC of R61 (assumption log 3). -/

namespace Sys2Proof.Machine

/-- JP NNN, 1NNN (R68). -/
def execJp (nnn : Addr12) (s : State) : Result := .next (s.advance.setPc (zext16 nnn))

/-- RET, 0XEE (R69). -/
def execRet (x : Nibble) (s : State) : Result :=
  if s.sp = 0 then raise .stackUnderflow 0 (.ret x) s
  else
    match s.advance.popReturn with
    | some t => .next t
    | none => .fault .stackPointerAbove16

/-- CALL NNN, 2NNN (R70). -/
def execCall (nnn : Addr12) (s : State) : Result :=
  if s.sp = 16 then raise .stackOverflow 16 (.call nnn) s
  else
    match s.advance.pushReturn with
    | some t => .next (t.setPc (zext16 nnn))
    | none => .fault .stackPointerAbove16

/-- SE V[x], NN, 3XNN (R72). -/
def execSeImm (x : Reg) (nn : Byte) (s : State) : Result := .next (s.advance.skipIf (s.reg x == nn))

/-- SNE V[x], NN, 4XNN (R73). -/
def execSneImm (x : Reg) (nn : Byte) (s : State) : Result := .next (s.advance.skipIf (s.reg x != nn))

/-- SE V[x], V[y], 5XYN for any N (R74). -/
def execSeReg (x y : Reg) (_n : Nibble) (s : State) : Result := .next (s.advance.skipIf (s.reg x == s.reg y))

/-- SNE V[x], V[y], 9XYN for any N (R75). -/
def execSneReg (x y : Reg) (_n : Nibble) (s : State) : Result := .next (s.advance.skipIf (s.reg x != s.reg y))

/-- JP V[0], NNN, BNNN: the sum is not reduced mod 4096 (R76). -/
def execJpV0 (nnn : Addr12) (s : State) : Result :=
  .next (s.advance.setPc (byteToWord (s.reg 0) + zext16 nnn))

end Sys2Proof.Machine
end

