-- ==== Sys2Proof/Machine/Index.lean ====
section
/-! DEFINITION. The index register and memory transfers (spec/43_index_memory.md R91–R96). An access is checked whole
before any byte is written (spec/20_memory.md R37). -/

namespace Sys2Proof.Machine

/-- LD I, NNN, ANNN (R91). -/
def execLdI (nnn : Addr12) (s : State) : Result := .next (s.advance.setI (zext16 nnn))

/-- ADD I, V[x], FX1E: mod 65536, VF unchanged (R92). -/
def execAddI (x : Reg) (s : State) : Result := .next (s.advance.setI (s.i + byteToWord (s.reg x)))

/-- LD F, V[x], FX29 (R93). -/
def execLdF (x : Reg) (s : State) : Result := .next (s.advance.setI (glyphAddr (s.reg x)))

/-- LD B, V[x], FX33 (R94). -/
def execLdB (x : Reg) (s : State) : Result :=
  if s.outOfRange 3 then raise .memRange s.i (.ldB x) s
  else .next (s.advance.setMem (s.mem.writeBytes (s.dataAddr 0) (decimalDigits (s.reg x))))

/-- LD [I], V[x], FX55: I is not changed (R95). -/
def execLdMemV (x : Reg) (s : State) : Result :=
  if s.outOfRange (x.val + 1) then raise .memRange s.i (.ldMemV x) s
  else .next (s.advance.setMem (s.mem.writeBytes (s.dataAddr 0) (s.regBlock x)))

/-- LD V[x], [I], FX65: I is not changed (R96). -/
def execLdVMem (x : Reg) (s : State) : Result :=
  if s.outOfRange (x.val + 1) then raise .memRange s.i (.ldVMem x) s
  else .next (s.advance.loadRegs x)

end Sys2Proof.Machine
end

