-- ==== Sys2Proof/Machine/Keys.lean ====
section
/-! DEFINITION. Keypad and timer instructions (spec/45_keys_timers.md R105–R110). The timer tick that follows them is
`finishStep`'s. -/

namespace Sys2Proof.Machine

/-- SKP V[x], EX9E (R105). -/
def execSkp (x : Reg) (s : State) : Result :=
  match s.keyAt (s.reg x) with
  | some down => .next (s.advance.skipIf down)
  | none => raise .keyRange (byteToWord (s.reg x)) (.skp x) s

/-- SKNP V[x], EXA1 (R106). -/
def execSknp (x : Reg) (s : State) : Result :=
  match s.keyAt (s.reg x) with
  | some down => .next (s.advance.skipIf (!down))
  | none => raise .keyRange (byteToWord (s.reg x)) (.sknp x) s

/-- LD V[x], DT, FX07: DT before this step's tick (R107). -/
def execLdVDt (x : Reg) (s : State) : Result := .next (s.advance.setReg x s.dt)

/-- LD V[x], K, FX0A: the key that V[x] selects, read at once, without waiting (R108). -/
def execLdVK (x : Reg) (s : State) : Result :=
  match s.keyAt (s.reg x) with
  | some down => .next (s.advance.setReg x (flagByte down))
  | none => raise .keyRange (byteToWord (s.reg x)) (.ldVK x) s

/-- LD DT, V[x], FX15 (R109). -/
def execLdDtV (x : Reg) (s : State) : Result := .next (s.advance.setDt (s.reg x))

/-- LD ST, V[x], FX18 (R110). -/
def execLdStV (x : Reg) (s : State) : Result := .next (s.advance.setSt (s.reg x))

end Sys2Proof.Machine
end

