-- ==== Sys2Proof/Machine/NoOp.lean ====
section
/-! DEFINITION. The no-ops: the unrecognised sub-codes of classes 0x0, 0x8, 0xE and 0xF (spec/40_step_cycle.md R65). Their
only effects are the PC advance here and the timer tick of the step. -/

namespace Sys2Proof.Machine

/-- SYS, 0NNN with NN not E0 or EE (R65, R120). -/
def execSys (_nnn : Addr12) (s : State) : Result := .next s.advance

/-- NOP8, 8XYN with N in 8..D or F (R65). -/
def execNop8 (_x _y _n : Nibble) (s : State) : Result := .next s.advance

/-- NOPE, EXNN with NN not 9E or A1 (R65). -/
def execNopE (_x : Nibble) (_nn : Byte) (s : State) : Result := .next s.advance

/-- NOPF, FXNN with NN none of the nine sub-codes (R65). -/
def execNopF (_x : Nibble) (_nn : Byte) (s : State) : Result := .next s.advance

end Sys2Proof.Machine
end

