-- ==== Sys2Proof/Machine/Screen.lean ====
section
/-! DEFINITION. The frame buffer, the sprite collision detector and the instructions CLS and DXYN
(spec/44_display.md R97–R104, spec/10_state.md R21). -/

namespace Sys2Proof.Machine

/-- The cell at column `x` and row `y`, DISP[y*64 + x]; false outside the frame buffer (R21). -/
def Display.cell (d : Display) (x y : Nat) : Bool :=
  if h : y < 32 then (d[y]).getLsbD x else false

/-- `DISP[y*64 + x] <- DISP[y*64 + x] ^ 1` inside the frame buffer. -/
def Display.toggle (d : Display) (x y : Nat) : Display :=
  if h : y < 32 then d.set y (d[y] ^^^ BitVec.twoPow 64 x) else d

/-- The empty frame buffer. -/
def Display.clear : Display := Vector.replicate 32 0

/-- One set sprite pixel at (x, y) on the frame buffer and the collision bit: clipped outside 64 × 32 (R100), else the
collision detector looks at the cell and the cell is toggled (R98, R101). -/
def drawPixel (x y : Nat) (a : Display × Bool) : Display × Bool :=
  if x < Config.dispW ∧ y < Config.dispH then (a.1.toggle x y, a.2 || a.1.cell x y) else a

/-- One sprite row at (x0, y): bit 7 - c of the byte is column c, so bit 7 is the leftmost (R98, R99). -/
def drawRow (row : Byte) (x0 y : Nat) (a : Display × Bool) : Display × Bool :=
  (List.range Config.spriteW).foldl (fun a c => if row.getLsbD (7 - c) then drawPixel (x0 + c) y a else a) a

/-- The first `n` rows of the sprite whose row r is the byte `rows r`, drawn at (x0, y0) (R98). -/
def drawSprite (rows : Nat → Byte) (n x0 y0 : Nat) (a : Display × Bool) : Display × Bool :=
  (List.range n).foldl (fun a r => drawRow (rows r) x0 (y0 + r) a) a

/-- The bytes of the sprite at I: row r is MEM[I + r] (R99). -/
def State.spriteRow (s : State) (r : Nat) : Byte := s.mem.read (s.dataAddr r)

/-- The frame buffer and the collision bit after drawing the sprite at I with `n` rows at (V[x], V[y]). -/
def State.drawn (s : State) (x y : Reg) (n : Nat) : Display × Bool :=
  drawSprite s.spriteRow n (s.reg x).toNat (s.reg y).toNat (s.disp, false)

/-- CLS, 0XE0: every cell 0 and DIRTY 1 (R97). -/
def execCls (_x : Nibble) (s : State) : Result := .next (s.advance.setScreen Display.clear)

/-- DRW V[x], V[y], n, DXYN: the coordinates are read before VF is written (R98). -/
def execDrw (x y : Reg) (n : Nibble) (s : State) : Result :=
  if s.outOfRange n.toNat then raise .memRange s.i (.drw x y n) s
  else
    let d := s.drawn x y n.toNat
    .next ((s.advance.setScreen d.1).setReg vf (flagByte d.2))

end Sys2Proof.Machine
end

