-- ==== Sys2Proof/Machine/Step.lean ====
section
/-! DEFINITION. One STEP: halt check, fetch, decode, execute, timer tick (spec/40_step_cycle.md R59). -/

namespace Sys2Proof.Machine

/-- STEP (R59): a halted core does nothing (R67), a fetch that leaves memory raises FETCH_RANGE with FAULT_OP 0 (R38,
R114), and otherwise the decoded instruction runs and the timers tick. -/
def step (s : State) : Host.Outcome State Fault Refusal :=
  if s.halted then .next s
  else if s.canFetch then finishStep (exec (decode s.fetchWord) s)
  else .next (s.takeFault .fetchRange s.pc 0)

/-- The state with the instruction `w` stored where `step` fetches next, at PC (assumption log 10). -/
def State.withFetchWord (s : State) (nbits w : Nat) : State :=
  s.setMem (s.mem.writeBytes s.pc.toNat (tableWordBytes nbits w))

end Sys2Proof.Machine
end

