-- ==== Sys2Proof/Machine/Listing.lean ====
section
/-! DEFINITION. The assembly syntax and the disassembler's line (spec/30_encoding.md R57, R58). The disassembler as a
tool is out of scope (spec/00_scope.md R4 b); its printed forms are kept. It reads the same decoder as `exec` (R47). -/

namespace Sys2Proof.Machine

/-- An immediate: 0x and lowercase hex digits without leading zeros (R57). -/
def hexText (n : Nat) : String := "0x" ++ String.ofList (Nat.toDigits 16 n)

/-- A byte offset in a listing: 0x and at least four hex digits, as the examples of R58 print it (assumption log 11). -/
def offsetText (n : Nat) : String :=
  let d := Nat.toDigits 16 n
  "0x" ++ String.ofList (List.replicate (4 - d.length) '0' ++ d)

/-- A general register: V[n], n in decimal (R57). -/
def regText (x : Reg) : String := "V[" ++ String.ofList (Nat.toDigits 10 x.val) ++ "]"

/-- A mnemonic with two operands. -/
def twoOperands (m a b : String) : String := m ++ " " ++ a ++ ", " ++ b

/-- The word of a no-op of class 0x8, 0xE or 0xF (R57). -/
def rawWordText (i : Instr) : String := ".word " ++ hexText (encode i).toNat

/-- The assembly text of an instruction (the table of R57). -/
def instrText : Instr → String
  | .cls _ => "CLS"
  | .ret _ => "RET"
  | .jp nnn => "JP " ++ hexText nnn.toNat
  | .call nnn => "CALL " ++ hexText nnn.toNat
  | .seImm x nn => twoOperands "SE" (regText x) (hexText nn.toNat)
  | .sneImm x nn => twoOperands "SNE" (regText x) (hexText nn.toNat)
  | .seReg x y _ => twoOperands "SE" (regText x) (regText y)
  | .ldImm x nn => twoOperands "LD" (regText x) (hexText nn.toNat)
  | .addImm x nn => twoOperands "ADD" (regText x) (hexText nn.toNat)
  | .ldReg x y => twoOperands "LD" (regText x) (regText y)
  | .orReg x y => twoOperands "OR" (regText x) (regText y)
  | .andReg x y => twoOperands "AND" (regText x) (regText y)
  | .xorReg x y => twoOperands "XOR" (regText x) (regText y)
  | .addReg x y => twoOperands "ADD" (regText x) (regText y)
  | .sub x y => twoOperands "SUB" (regText x) (regText y)
  | .shr x y => twoOperands "SHR" (regText x) (regText y)
  | .subn x y => twoOperands "SUBN" (regText x) (regText y)
  | .shl x y => twoOperands "SHL" (regText x) (regText y)
  | .sneReg x y _ => twoOperands "SNE" (regText x) (regText y)
  | .ldI nnn => twoOperands "LD" "I" (hexText nnn.toNat)
  | .jpV0 nnn => twoOperands "JP" "V[0]" (hexText nnn.toNat)
  | .rnd x nn => twoOperands "RND" (regText x) (hexText nn.toNat)
  | .drw x y n => twoOperands "DRW" (regText x) (regText y) ++ ", " ++ hexText n.toNat
  | .skp x => "SKP " ++ regText x
  | .sknp x => "SKNP " ++ regText x
  | .ldVDt x => twoOperands "LD" (regText x) "DT"
  | .ldVK x => twoOperands "LD" (regText x) "K"
  | .ldDtV x => twoOperands "LD" "DT" (regText x)
  | .ldStV x => twoOperands "LD" "ST" (regText x)
  | .addI x => twoOperands "ADD" "I" (regText x)
  | .ldF x => twoOperands "LD" "F" (regText x)
  | .ldB x => twoOperands "LD" "B" (regText x)
  | .ldMemV x => twoOperands "LD" "[I]" (regText x)
  | .ldVMem x => twoOperands "LD" (regText x) "[I]"
  | .sys nnn => "SYS " ++ hexText nnn.toNat
  | .nop8 x y n => rawWordText (.nop8 x y n)
  | .nopE x nn => rawWordText (.nopE x nn)
  | .nopF x nn => rawWordText (.nopF x nn)

/-- One line of a listing: the word `op` at byte offset `off` (R58). -/
def listingLine (off : Nat) (op : Word) : String :=
  "ADDR " ++ offsetText off ++ ": " ++ instrText (decode op) ++ "\n"

/-- The listing of a buffer from byte offset `off`: one line per 2-byte word, code or data (R58). A last odd byte is no
2-byte word and has no line (assumption log 11). -/
def listing (off : Nat) : List Byte → List String
  | hi :: lo :: rest => listingLine off (wordOfBytes hi lo) :: listing (off + 2) rest
  | [_] => []
  | [] => []

end Sys2Proof.Machine
end

