-- ==== Sys2Proof/Machine/HostOps.lean ====
section
/-! DEFINITION. The host operations of the block's interface (spec/10_state.md R26), each atomic and between two steps
(R27): RESET, LOAD, STEP, SET_KEY, CLEAR_DIRTY and the reads. -/

namespace Sys2Proof.Machine

/-- The state after RESET with the parameter FONT as an argument (spec/70_reset_and_hazards.md R127, R128): the FONT
bytes at 0x000..0x04F. `State.reset` is this state for the default FONT. -/
def resetWith (font : Vector Byte 80) : State :=
  State.reset.setMem (Memory.writeBytes [] 0 font.toList)

/-- RESET, which the host may issue between any two steps (R127). The model's own count of consumed `rnd` inputs goes
on, so that the inputs after a RESET are as free as those before it (assumption log 1). -/
def hostReset (font : Vector Byte 80) (s : State) : State := { resetWith font with rndCount := s.rndCount }

/-- What LOAD reports to the host (R130, R131). -/
inductive LoadReport where
  | accepted
  | rejected
  deriving DecidableEq, Repr

/-- LOAD(b, L) with L the length of `b`: the bytes go to MEM[0x200 ..] and nothing else changes (R130), or the buffer is
longer than MAX_ROM and nothing at all changes (R131). -/
def hostLoad (b : List Byte) (s : State) : LoadReport × State :=
  if b.length ≤ Config.maxRom then (.accepted, s.setMem (s.mem.writeBytes Config.loadBase b)) else (.rejected, s)

/-- SET_KEY (R23, R26): `KEY[k] <- down`. -/
def hostSetKey (k : Fin 16) (down : Bool) (s : State) : State := { s with key := s.key.set k.val down }

/-- CLEAR_DIRTY (R22, R26). -/
def hostClearDirty (s : State) : State := { s with dirty := false }

/-- What the host reads (R26). -/
structure HostView where
  disp      : List Byte
  dirty     : Bool
  sound     : Bool
  faultCode : Byte
  faultPc   : Word
  faultOp   : Word
  faultInfo : Word
  deriving DecidableEq, Repr

/-- The host's read of DISP: cell y*64 + x as the byte 0 or 1, in that order (R21). -/
def State.dispBytes (s : State) : List Byte :=
  (List.range (Config.dispW * Config.dispH)).map fun idx =>
    flagByte (s.disp.cell (idx % Config.dispW) (idx / Config.dispW))

/-- The read operation (R26). -/
def hostRead (s : State) : HostView :=
  ⟨s.dispBytes, s.dirty, s.sound, s.faultCode, s.faultPc, s.faultOp, s.faultInfo⟩

/-- The operations of R26 that may change the state. -/
inductive HostOp where
  | reset (font : Vector Byte 80)
  | load (b : List Byte)
  | step
  | setKey (k : Fin 16) (down : Bool)
  | clearDirty
  deriving DecidableEq, Repr

/-- One host operation on the machine. -/
def hostApply : HostOp → State → Result
  | .reset font, s => .next (hostReset font s)
  | .load b, s => .next (hostLoad b s).2
  | .step, s => step s
  | .setKey k down, s => .next (hostSetKey k down s)
  | .clearDirty, s => .next (hostClearDirty s)

end Sys2Proof.Machine
end

