-- ==== Sys2Proof/Safety.lean ====
section
/-! DEFINITION. What counts as a safe state and a safe run, in the terms the claims use. -/

namespace Sys2Proof.Machine

/-- The next STEP executes an instruction: the core is not halted (R67) and the fetch stays inside memory (R38). -/
def State.ready (s : State) : Prop := s.faultCode = 0 ∧ s.pc.toNat + 1 ≤ 0xFFF

/-- The opcode at PC as a number: MemRead(PC, 1) * 256 + MemRead(PC + 1, 1) (R35). -/
def State.opcodeAtPc (s : State) : Nat :=
  (s.mem.read s.pc.toNat).toNat * 256 + (s.mem.read (s.pc.toNat + 1)).toNat

/-- The states that the spec allows: memory in canonical form, SP in 0..16 (R15), FAULT_CODE in 0..5 (R112), and
nothing latched while the code is NONE (R112, R114, R127). -/
structure State.Inv (s : State) : Prop where
  mem_wf : s.mem.wf = true
  sp_le : s.sp.toNat ≤ 16
  code_le : s.faultCode.toNat ≤ 5
  latch_clear : s.faultCode = 0 → s.faultPc = 0 ∧ s.faultOp = 0 ∧ s.faultInfo = 0

/-- The sprite of `n` rows at I, drawn at (V[x], V[y]), has a set bit over the cell at column `px` and row `py`: row r is
the byte MEM[I + r] and its bit 7 - c is column c (spec/44_display.md R99). -/
def State.covers (s : State) (x y : Reg) (n px py : Nat) : Prop :=
  ∃ r c, r < n ∧ c < 8 ∧ px = (s.reg x).toNat + c ∧ py = (s.reg y).toNat + r ∧
    (s.mem.read (s.i.toNat + r)).getLsbD (7 - c) = true

/-- A safe step: it answers a next state in which no fault is latched (R116). -/
def State.stepsSafely (s : State) : Prop := ∃ t, step s = .next t ∧ t.faultCode = 0

end Sys2Proof.Machine
end

