-- ==== Sys2Proof/Certificates/Slice0/Obligations.lean ====
section
/-! DEFINITION. The statements for the provers, in the order of the spec's files: encoding, step, control flow, ALU, index
and memory, display, keypad and timers, faults, and the whole machine. A statement writes the word of each instruction as
the spec's map gives it (R49), not through the model's encoder, and gives the frame as an equation between whole states.
A statement that rests on one of the spec's own decisions (spec/92_eei_decisions.md D<n>) or on an entry of the
assumption log says so. -/

open Sys2Proof
open Sys2Proof.Machine

/-! ### Encoding (spec/30_encoding.md) -/

/-- Words written out from the opcode map of R49 decode to the instructions they stand for, the unexamined nibbles of
0XE0, 0XEE and 5XYN among them. -/
def Obligations.KnownWordsDecode : Prop :=
  decode 0x01E0 = .cls 1 ∧ decode 0x0FEE = .ret 0xF ∧ decode 0x0123 = .sys 0x123 ∧ decode 0x1234 = .jp 0x234 ∧
  decode 0x5125 = .seReg 1 2 5 ∧ decode 0x8F14 = .addReg 15 1 ∧ decode 0x812E = .shl 1 2 ∧ decode 0x8008 = .nop8 0 0 8 ∧
  decode 0xB300 = .jpV0 0x300 ∧ decode 0xC10F = .rnd 1 0x0F ∧ decode 0xD125 = .drw 1 2 5 ∧ decode 0xE19E = .skp 1 ∧
  decode 0xE000 = .nopE 0 0 ∧ decode 0xF465 = .ldVMem 4 ∧ decode 0xF0FF = .nopF 0 0xFF

/-- R46: the six fields by their shifts and masks, and how they overlap. -/
def Obligations.FieldsByShiftAndMask : Prop :=
  ∀ op : Word,
    (fieldC op).toNat = (op.toNat >>> 12) &&& 0xF ∧ (fieldX op).toNat = (op.toNat >>> 8) &&& 0xF ∧
    (fieldY op).toNat = (op.toNat >>> 4) &&& 0xF ∧ (fieldN op).toNat = op.toNat &&& 0xF ∧
    (fieldNN op).toNat = op.toNat &&& 0xFF ∧ (fieldNNN op).toNat = op.toNat &&& 0xFFF ∧
    (fieldNN op).toNat = (fieldY op).toNat * 16 + (fieldN op).toNat ∧
    (fieldNNN op).toNat = (fieldX op).toNat * 256 + (fieldNN op).toNat

/-- R52, R53, R54: which instruction each sub-code of the classes 0x8, 0xE and 0xF selects, the no-ops included. -/
def Obligations.SubCodesSelect : Prop :=
  (∀ (x y : Reg) (n : Nibble),
    decode (BitVec.ofNat 16 (0x8000 + 256 * x.val + 16 * y.val + n.toNat)) =
      if n = 0x0 then .ldReg x y else if n = 0x1 then .orReg x y else if n = 0x2 then .andReg x y
      else if n = 0x3 then .xorReg x y else if n = 0x4 then .addReg x y else if n = 0x5 then .sub x y
      else if n = 0x6 then .shr x y else if n = 0x7 then .subn x y else if n = 0xE then .shl x y
      else .nop8 (BitVec.ofNat 4 x.val) (BitVec.ofNat 4 y.val) n) ∧
  (∀ (x : Reg) (nn : Byte),
    decode (BitVec.ofNat 16 (0xE000 + 256 * x.val + nn.toNat)) =
      if nn = 0x9E then .skp x else if nn = 0xA1 then .sknp x else .nopE (BitVec.ofNat 4 x.val) nn) ∧
  (∀ (x : Reg) (nn : Byte),
    decode (BitVec.ofNat 16 (0xF000 + 256 * x.val + nn.toNat)) =
      if nn = 0x07 then .ldVDt x else if nn = 0x0A then .ldVK x else if nn = 0x15 then .ldDtV x
      else if nn = 0x18 then .ldStV x else if nn = 0x1E then .addI x else if nn = 0x29 then .ldF x
      else if nn = 0x33 then .ldB x else if nn = 0x55 then .ldMemV x else if nn = 0x65 then .ldVMem x
      else .nopF (BitVec.ofNat 4 x.val) nn)

/-- The decoder gives back every well-formed instruction from its encoding, every operand at every value. -/
def Obligations.DecodeOfEncode : Prop :=
  ∀ i : Instr, i.wf = true → decode (encode i) = i

/-- Every one of the 65536 words decodes to a well-formed instruction (R55), and no bit of it is lost: the encoder gives
the word back. FAULT_OP rests on this (R114; assumption log 7). -/
def Obligations.EncodeOfDecode : Prop :=
  ∀ op : Word, (decode op).wf = true ∧ encode (decode op) = op

/-- The decoder follows the opcode table: a word matches the row of what it decodes to; that row is the only instruction
row it matches, or, for a no-op, no instruction row matches (spec/opcode_table.json, the note under R49). -/
def Obligations.DecoderFollowsOpcodeTable : Prop :=
  ∀ op : Word, (rowOf (decode op)).matchesWord op = true ∧ rowOf (decode op) ∈ opcodeTable ∧
    ∀ r ∈ opcodeTable, r.fallback = false → r.matchesWord op = true →
      r = rowOf (decode op) ∧ (rowOf (decode op)).fallback = false

/-! ### The step (spec/40_step_cycle.md) -/

/-- A step runs the decoded instruction: the opcode is MemRead(PC)*256 + MemRead(PC+1), the instruction runs on the
state whose PC is pc0, and then each nonzero timer goes down by one unless the instruction raised a fault (R59; where
the instruction's rule advances PC, assumption log 3). No instruction is refused. -/
def Obligations.StepRunsDecodedInstruction : Prop :=
  ∀ (s : State) (i : Instr), s.ready → i = decode (BitVec.ofNat 16 s.opcodeAtPc) →
    (∀ t, exec i s = .next t → t.faultCode = 0 →
      step s = .next { t with dt := if t.dt = 0 then 0 else t.dt - 1, st := if t.st = 0 then 0 else t.st - 1 }) ∧
    (∀ t, exec i s = .next t → t.faultCode ≠ 0 → step s = .next t) ∧
    (∀ f, exec i s = .fault f → step s = .fault f) ∧
    (∀ r, exec i s ≠ .refused r)

/-- A step of a halted core does nothing (R67, the spec's decision D24). -/
def Obligations.HaltedStepChangesNothing : Prop :=
  ∀ s : State, s.faultCode ≠ 0 → step s = .next s

/-- A fetch at PC ≥ 0xFFF raises FETCH_RANGE: code 3, FAULT_OP 0, and nothing but the latch changes (R38, R114; the
spec's decisions D8, D28). -/
def Obligations.FetchBeyondMemoryFaults : Prop :=
  ∀ s : State, s.faultCode = 0 → 0xFFF ≤ s.pc.toNat →
    step s = .next { s with faultCode := 3, faultPc := s.pc, faultOp := 0, faultInfo := s.pc }

/-- The host's way to place an instruction stores its two bytes big-endian at PC and changes no other byte, so that the
next fetch reads exactly that word (R35; assumption log 10). -/
def Obligations.PlacedWordIsFetched : Prop :=
  ∀ (s : State) (op : Word), s.Inv → s.ready →
    (s.withFetchWord 16 op.toNat).opcodeAtPc = op.toNat ∧
    ((s.withFetchWord 16 op.toNat).mem.read s.pc.toNat).toNat = op.toNat / 256 ∧
    (∀ a, a ≠ s.pc.toNat → a ≠ s.pc.toNat + 1 → (s.withFetchWord 16 op.toNat).mem.read a = s.mem.read a) ∧
    { s.withFetchWord 16 op.toNat with mem := s.mem } = s

/-- R65: a step on a no-op word advances PC by 2 and ticks the timers, and does nothing else. -/
def Obligations.NoOpStepOnlyAdvancesAndTicks : Prop :=
  ∀ s : State, s.ready →
    (s.opcodeAtPc / 4096 = 0x0 ∧ s.opcodeAtPc % 256 ∉ [0xE0, 0xEE] ∨
     s.opcodeAtPc / 4096 = 0x8 ∧ s.opcodeAtPc % 16 ∈ [0x8, 0x9, 0xA, 0xB, 0xC, 0xD, 0xF] ∨
     s.opcodeAtPc / 4096 = 0xE ∧ s.opcodeAtPc % 256 ∉ [0x9E, 0xA1] ∨
     s.opcodeAtPc / 4096 = 0xF ∧ s.opcodeAtPc % 256 ∉ [0x07, 0x0A, 0x15, 0x18, 0x1E, 0x29, 0x33, 0x55, 0x65]) →
    step s = .next { s with
      pc := s.pc + 2
      dt := if s.dt = 0 then 0 else s.dt - 1
      st := if s.st = 0 then 0 else s.st - 1 }

/-- The four no-op rows complete in every state: PC moves to pc0 + 2 and nothing else changes before the tick (R65). -/
def Obligations.NoOpsOnlyAdvance : Prop :=
  ∀ (s : State) (nnn : Addr12) (x y n : Nibble) (nn : Byte),
    exec (.sys nnn) s = .next { s with pc := s.pc + 2 } ∧ exec (.nop8 x y n) s = .next { s with pc := s.pc + 2 } ∧
    exec (.nopE x nn) s = .next { s with pc := s.pc + 2 } ∧ exec (.nopF x nn) s = .next { s with pc := s.pc + 2 }

/-- R61: every instruction that commits runs with the provisional PC pc0 + 2: a jump, call or return overwrites it, a
skip adds 2 to it or leaves it, CALL pushes it, and every other instruction leaves it. -/
def Obligations.ProvisionalPc : Prop :=
  ∀ (i : Instr) (s t : State), s.faultCode = 0 → exec i s = .next t → t.faultCode = 0 →
    match i with
    | .jp nnn => t.pc.toNat = nnn.toNat
    | .call nnn => t.pc.toNat = nnn.toNat ∧ ∀ h : s.sp.toNat < 16, t.stack[s.sp.toNat] = s.pc + 2
    | .ret _ => ∀ h : s.sp.toNat - 1 < 16, t.pc = s.stack[s.sp.toNat - 1]
    | .jpV0 nnn => t.pc.toNat = (s.reg 0).toNat + nnn.toNat
    | .seImm _ _ | .sneImm _ _ | .seReg _ _ _ | .sneReg _ _ _ | .skp _ | .sknp _ =>
      t.pc = s.pc + 2 ∨ t.pc = s.pc + 2 + 2
    | _ => t.pc = s.pc + 2

/-- The timer tick (R66, R121): every step that has not faulted ends with it, on the values that the instruction left
(FX15 and FX18 among them): a nonzero timer goes down by one, a timer at 0 stays at 0, ST from 1 to 0 is SOUND from 1 to 0.
A step that faults does not tick (R64, R114; the spec's decision D4, assumption log 4). -/
def Obligations.TimersTickOncePerStep : Prop :=
  ∀ s t : State, s.ready → step s = .next t →
    (t.faultCode ≠ 0 → t.dt = s.dt ∧ t.st = s.st) ∧
    (t.faultCode = 0 →
      t.dt.toNat = (match decode s.fetchWord with | .ldDtV x => s.reg x | _ => s.dt).toNat - 1 ∧
      t.st.toNat = (match decode s.fetchWord with | .ldStV x => s.reg x | _ => s.st).toNat - 1 ∧
      (∀ u, exec (decode s.fetchWord) s = .next u → u.st = 1 → u.sound = true ∧ t.sound = false))

/-! ### Control transfer (spec/41_flow.md) -/

/-- JP puts NNN in PC and changes nothing else (R68). A jump to itself is a loop in which every step still ticks the
timers, and after a jump to 0xFFF the next fetch raises FETCH_RANGE (the spec's decision D8). -/
def Obligations.JumpToTarget : Prop :=
  ∀ (nnn : Addr12) (s : State),
    decode (BitVec.ofNat 16 (0x1000 + nnn.toNat)) = .jp nnn ∧
    exec (.jp nnn) s = .next { s with pc := nnn.setWidth 16 } ∧
    (s.ready → s.opcodeAtPc = 0x1000 + nnn.toNat → s.pc = nnn.setWidth 16 →
      step s = .next { s with
        dt := if s.dt = 0 then 0 else s.dt - 1
        st := if s.st = 0 then 0 else s.st - 1 }) ∧
    (s.ready → s.opcodeAtPc = 0x1FFF → ∃ t u, step s = .next t ∧ step t = .next u ∧ t.faultCode = 0 ∧ u.faultCode = 3)

/-- JP V[0] puts V[0] + NNN in PC, a sum that never wraps and is not reduced mod 4096; nothing else changes (R76). A
target above 0xFFE makes the next fetch raise FETCH_RANGE (the spec's decision D8). -/
def Obligations.IndexedJump : Prop :=
  ∀ (nnn : Addr12) (s : State),
    decode (BitVec.ofNat 16 (0xB000 + nnn.toNat)) = .jpV0 nnn ∧
    ∃ t, exec (.jpV0 nnn) s = .next t ∧ t.pc.toNat = (s.reg 0).toNat + nnn.toNat ∧ t.pc.toNat ≤ 0x10FE ∧
      { t with pc := s.pc } = s ∧
      (t.faultCode = 0 → 0xFFE < t.pc.toNat → ∃ u, step t = .next u ∧ u.faultCode = 3)

/-- R72, R73: the skips on an immediate: PC is pc0 + 4 when taken and pc0 + 2 when not, and nothing else changes. -/
def Obligations.SkipsOnImmediate : Prop :=
  ∀ (x : Reg) (nn : Byte) (s : State),
    decode (BitVec.ofNat 16 (0x3000 + 256 * x.val + nn.toNat)) = .seImm x nn ∧
    decode (BitVec.ofNat 16 (0x4000 + 256 * x.val + nn.toNat)) = .sneImm x nn ∧
    exec (.seImm x nn) s = .next { s with pc := if s.reg x = nn then s.pc + 4 else s.pc + 2 } ∧
    exec (.sneImm x nn) s = .next { s with pc := if s.reg x = nn then s.pc + 2 else s.pc + 4 }

/-- R74, R75: the skips on two registers, for every N: PC is pc0 + 4 when taken and pc0 + 2 when not, and nothing else
changes; with X = Y the first always skips and the second never. -/
def Obligations.SkipsOnRegisters : Prop :=
  ∀ (x y : Reg) (n : Nibble) (s : State),
    decode (BitVec.ofNat 16 (0x5000 + 256 * x.val + 16 * y.val + n.toNat)) = .seReg x y n ∧
    decode (BitVec.ofNat 16 (0x9000 + 256 * x.val + 16 * y.val + n.toNat)) = .sneReg x y n ∧
    exec (.seReg x y n) s = .next { s with pc := if s.reg x = s.reg y then s.pc + 4 else s.pc + 2 } ∧
    exec (.sneReg x y n) s = .next { s with pc := if s.reg x = s.reg y then s.pc + 2 else s.pc + 4 } ∧
    exec (.seReg x x n) s = .next { s with pc := s.pc + 4 } ∧ exec (.sneReg x x n) s = .next { s with pc := s.pc + 2 }

/-- RET (R69): with SP in 1..16 it pops, the entry keeping its value (the spec's decision D21); with SP = 0 it latches
STACK_UNDERFLOW and changes nothing else (decisions D4, D6, D28). -/
def Obligations.ReturnPops : Prop :=
  ∀ (x : Nibble) (s : State),
    decode (BitVec.ofNat 16 (0x00EE + 256 * x.toNat)) = .ret x ∧
    (∀ h : 0 < s.sp.toNat ∧ s.sp.toNat ≤ 16,
      exec (.ret x) s = .next { s with sp := s.sp - 1, pc := s.stack[s.sp.toNat - 1] }) ∧
    (s.sp = 0 → exec (.ret x) s = .next { s with
      faultCode := 2, faultPc := s.pc, faultOp := BitVec.ofNat 16 (0x00EE + 256 * x.toNat), faultInfo := 0 })

/-- CALL (R70): with SP in 0..15 it pushes pc0 + 2 and jumps; with SP = 16 it latches STACK_OVERFLOW and changes nothing
else (the spec's decisions D4, D5, D28). -/
def Obligations.CallPushes : Prop :=
  ∀ (nnn : Addr12) (s : State),
    decode (BitVec.ofNat 16 (0x2000 + nnn.toNat)) = .call nnn ∧
    (∀ h : s.sp.toNat < 16, exec (.call nnn) s = .next { s with
      stack := s.stack.set s.sp.toNat (s.pc + 2), sp := s.sp + 1, pc := nnn.setWidth 16 }) ∧
    (s.sp = 16 → exec (.call nnn) s = .next { s with
      faultCode := 1, faultPc := s.pc, faultOp := BitVec.ofNat 16 (0x2000 + nnn.toNat), faultInfo := 16 })

/-- The model's own stop (assumption log 5): CALL and RET with SP above 16, a state that R15 rules out, stop by name. -/
def Obligations.StackPointerAbove16Stops : Prop :=
  ∀ (x : Nibble) (nnn : Addr12) (s : State), 16 < s.sp.toNat →
    exec (.ret x) s = .fault .stackPointerAbove16 ∧ exec (.call nnn) s = .fault .stackPointerAbove16

/-- A RET after a CALL, wherever PC then stands and whatever ran in between left in the other registers, resumes after
the CALL with SP as it was (R69, R70, R133). -/
def Obligations.ReturnResumesAfterCall : Prop :=
  ∀ (nnn : Addr12) (x : Nibble) (s : State), s.sp.toNat < 16 →
    ∃ t, exec (.call nnn) s = .next t ∧
      ∀ u : State, u.sp = t.sp → u.stack = t.stack →
        exec (.ret x) u = .next { u with sp := s.sp, pc := s.pc + 2 }

/-! ### Register loads and ALU (spec/42_alu.md). `{ t with v := s.v } = { s with pc := s.pc + 2 }` says that everything but
V is as before with PC at pc0 + 2. -/

/-- R77, R78: LD V[x], NN and ADD V[x], NN; no other register changes, VF included. -/
def Obligations.ImmediateLoadAndAdd : Prop :=
  ∀ (x : Reg) (nn : Byte) (s : State),
    decode (BitVec.ofNat 16 (0x6000 + 256 * x.val + nn.toNat)) = .ldImm x nn ∧
    decode (BitVec.ofNat 16 (0x7000 + 256 * x.val + nn.toNat)) = .addImm x nn ∧
    (∃ t, exec (.ldImm x nn) s = .next t ∧ t.reg x = nn ∧ (∀ k, k ≠ x → t.reg k = s.reg k) ∧
      { t with v := s.v } = { s with pc := s.pc + 2 }) ∧
    (∃ t, exec (.addImm x nn) s = .next t ∧ (t.reg x).toNat = ((s.reg x).toNat + nn.toNat) % 256 ∧
      (∀ k, k ≠ x → t.reg k = s.reg k) ∧ { t with v := s.v } = { s with pc := s.pc + 2 })

/-- R79, R80, R81, R82: copy, or, and, exclusive or; bit by bit, and no other register changes, VF included. -/
def Obligations.CopyAndLogic : Prop :=
  ∀ (x y : Reg) (s : State),
    decode (BitVec.ofNat 16 (0x8000 + 256 * x.val + 16 * y.val)) = .ldReg x y ∧
    decode (BitVec.ofNat 16 (0x8001 + 256 * x.val + 16 * y.val)) = .orReg x y ∧
    decode (BitVec.ofNat 16 (0x8002 + 256 * x.val + 16 * y.val)) = .andReg x y ∧
    decode (BitVec.ofNat 16 (0x8003 + 256 * x.val + 16 * y.val)) = .xorReg x y ∧
    (∃ t, exec (.ldReg x y) s = .next t ∧ t.reg x = s.reg y ∧ (∀ k, k ≠ x → t.reg k = s.reg k) ∧
      { t with v := s.v } = { s with pc := s.pc + 2 }) ∧
    (∃ t, exec (.orReg x y) s = .next t ∧
      (∀ b, (t.reg x).getLsbD b = ((s.reg x).getLsbD b || (s.reg y).getLsbD b)) ∧ (∀ k, k ≠ x → t.reg k = s.reg k) ∧
      { t with v := s.v } = { s with pc := s.pc + 2 }) ∧
    (∃ t, exec (.andReg x y) s = .next t ∧
      (∀ b, (t.reg x).getLsbD b = ((s.reg x).getLsbD b && (s.reg y).getLsbD b)) ∧ (∀ k, k ≠ x → t.reg k = s.reg k) ∧
      { t with v := s.v } = { s with pc := s.pc + 2 }) ∧
    (∃ t, exec (.xorReg x y) s = .next t ∧
      (∀ b, (t.reg x).getLsbD b = ((s.reg x).getLsbD b ^^ (s.reg y).getLsbD b)) ∧ (∀ k, k ≠ x → t.reg k = s.reg k) ∧
      { t with v := s.v } = { s with pc := s.pc + 2 })

/-- ADD V[x], V[y] (R83): VF takes the carry c first, and the sum is then formed from the registers as they are, which
decides every case where X or Y is 15 (the spec's decision D3). -/
def Obligations.AddWithCarry : Prop :=
  ∀ (x y : Reg) (s : State) (c : Nat), c = (if (s.reg x).toNat + (s.reg y).toNat > 255 then 1 else 0) →
    decode (BitVec.ofNat 16 (0x8004 + 256 * x.val + 16 * y.val)) = .addReg x y ∧
    ∃ t, exec (.addReg x y) s = .next t ∧
      (t.reg x).toNat = ((if x = 15 then c else (s.reg x).toNat) + (if y = 15 then c else (s.reg y).toNat)) % 256 ∧
      (x ≠ 15 → (t.reg 15).toNat = c) ∧ (∀ k, k ≠ x → k ≠ 15 → t.reg k = s.reg k) ∧
      { t with v := s.v } = { s with pc := s.pc + 2 }

/-- SUB and SUBN (R84, R86): VF takes the strict no-borrow f first, and the difference is then formed from the registers
as they are (the spec's decision D3 where X or Y is 15). -/
def Obligations.SubtractBothWays : Prop :=
  ∀ (x y : Reg) (s : State) (f g : Nat), f = (if (s.reg x).toNat > (s.reg y).toNat then 1 else 0) →
    g = (if (s.reg y).toNat > (s.reg x).toNat then 1 else 0) →
    decode (BitVec.ofNat 16 (0x8005 + 256 * x.val + 16 * y.val)) = .sub x y ∧
    decode (BitVec.ofNat 16 (0x8007 + 256 * x.val + 16 * y.val)) = .subn x y ∧
    (∃ t, exec (.sub x y) s = .next t ∧
      (t.reg x).toNat =
        ((if x = 15 then f else (s.reg x).toNat) + 256 - (if y = 15 then f else (s.reg y).toNat)) % 256 ∧
      (x ≠ 15 → (t.reg 15).toNat = f) ∧ (∀ k, k ≠ x → k ≠ 15 → t.reg k = s.reg k) ∧
      { t with v := s.v } = { s with pc := s.pc + 2 }) ∧
    (∃ t, exec (.subn x y) s = .next t ∧
      (t.reg x).toNat =
        ((if y = 15 then g else (s.reg y).toNat) + 256 - (if x = 15 then g else (s.reg x).toNat)) % 256 ∧
      (x ≠ 15 → (t.reg 15).toNat = g) ∧ (∀ k, k ≠ x → k ≠ 15 → t.reg k = s.reg k) ∧
      { t with v := s.v } = { s with pc := s.pc + 2 })

/-- SHR and SHL (R85, R87), for every Y: V[x] shifts by one and VF takes the bit shifted out; with X = 15 the new VF is
what shifts, so VF ends as 0, or as twice the old bit 7 (the spec's decision D3). -/
def Obligations.ShiftByOne : Prop :=
  ∀ (x y : Reg) (s : State),
    decode (BitVec.ofNat 16 (0x8006 + 256 * x.val + 16 * y.val)) = .shr x y ∧
    decode (BitVec.ofNat 16 (0x800E + 256 * x.val + 16 * y.val)) = .shl x y ∧
    (∃ t, exec (.shr x y) s = .next t ∧ (t.reg x).toNat = (if x = 15 then 0 else (s.reg x).toNat / 2) ∧
      (x ≠ 15 → (t.reg 15).toNat = (s.reg x).toNat % 2) ∧ (∀ k, k ≠ x → k ≠ 15 → t.reg k = s.reg k) ∧
      { t with v := s.v } = { s with pc := s.pc + 2 }) ∧
    (∃ t, exec (.shl x y) s = .next t ∧
      (t.reg x).toNat = (if x = 15 then 2 * ((s.reg x).toNat / 128) else 2 * (s.reg x).toNat % 256) ∧
      (x ≠ 15 → (t.reg 15).toNat = (s.reg x).toNat / 128) ∧ (∀ k, k ≠ x → k ≠ 15 → t.reg k = s.reg k) ∧
      { t with v := s.v } = { s with pc := s.pc + 2 })

/-- RND (R88): the `rnd` input masked by NN, whatever byte the input is; its bits are among NN's. The input is the free
value `Config.rnd` at the model's counter, which goes up by one (assumption log 1). -/
def Obligations.RandomByteMasked : Prop :=
  ∀ (x : Reg) (nn : Byte) (s : State),
    decode (BitVec.ofNat 16 (0xC000 + 256 * x.val + nn.toNat)) = .rnd x nn ∧
    (∀ input : Byte, (rndWith input x nn s).reg x = input &&& nn) ∧
    ∃ t, exec (.rnd x nn) s = .next t ∧ t.reg x = Config.rnd s.rndCount &&& nn ∧
      (∀ b, (t.reg x).getLsbD b = true → nn.getLsbD b = true) ∧ (nn = 0 → t.reg x = 0) ∧
      (nn = 0xFF → t.reg x = Config.rnd s.rndCount) ∧ (∀ k, k ≠ x → t.reg k = s.reg k) ∧
      { t with v := s.v } = { s with pc := s.pc + 2, rndCount := s.rndCount + 1 }

/-! ### Index register and memory (spec/43_index_memory.md) -/

/-- R91, R92, R93: the three instructions that write I; nothing else changes, VF included. -/
def Obligations.IndexRegisterWrites : Prop :=
  ∀ (nnn : Addr12) (x : Reg) (s : State),
    decode (BitVec.ofNat 16 (0xA000 + nnn.toNat)) = .ldI nnn ∧
    decode (BitVec.ofNat 16 (0xF01E + 256 * x.val)) = .addI x ∧
    decode (BitVec.ofNat 16 (0xF029 + 256 * x.val)) = .ldF x ∧
    (∃ t, exec (.ldI nnn) s = .next t ∧ t.i.toNat = nnn.toNat ∧ { t with i := s.i } = { s with pc := s.pc + 2 }) ∧
    (∃ t, exec (.addI x) s = .next t ∧ t.i.toNat = (s.i.toNat + (s.reg x).toNat) % 65536 ∧
      { t with i := s.i } = { s with pc := s.pc + 2 }) ∧
    (∃ t, exec (.ldF x) s = .next t ∧ t.i.toNat = (s.reg x).toNat * 5 ∧ { t with i := s.i } = { s with pc := s.pc + 2 })

/-- LD B (R94): where I + 2 is inside memory (the range check is the spec's decision D7), the hundreds, tens and units
digits of V[x] stand at I, I + 1, I + 2; every other byte, I and every register are as before. -/
def Obligations.DecimalDigitsStored : Prop :=
  ∀ (x : Reg) (s : State), s.Inv → s.i.toNat + 2 ≤ 0xFFF →
    decode (BitVec.ofNat 16 (0xF033 + 256 * x.val)) = .ldB x ∧
    ∃ t, exec (.ldB x) s = .next t ∧ { t with mem := s.mem } = { s with pc := s.pc + 2 } ∧
      (t.mem.read s.i.toNat).toNat = (s.reg x).toNat / 100 ∧
      (t.mem.read (s.i.toNat + 1)).toNat = (s.reg x).toNat / 10 % 10 ∧
      (t.mem.read (s.i.toNat + 2)).toNat = (s.reg x).toNat % 10 ∧
      ∀ a, a = s.dataAddr 0 → ∀ b, b < a ∨ a + 3 ≤ b → t.mem.read b = s.mem.read b

/-- LD [I], V[x] (R95): where I + X is inside memory (decision D7), V[k] stands at I + k for k = 0..X; every other
byte, I and every register are as before. -/
def Obligations.RegisterBlockStored : Prop :=
  ∀ (x : Reg) (s : State), s.Inv → s.i.toNat + x.val ≤ 0xFFF →
    decode (BitVec.ofNat 16 (0xF055 + 256 * x.val)) = .ldMemV x ∧
    ∃ t, exec (.ldMemV x) s = .next t ∧ { t with mem := s.mem } = { s with pc := s.pc + 2 } ∧
      (∀ k : Reg, k ≤ x → t.mem.read (s.i.toNat + k.val) = s.reg k) ∧
      ∀ a, a = s.dataAddr 0 → ∀ b, b < a ∨ a + x.val + 1 ≤ b → t.mem.read b = s.mem.read b

/-- LD V[x], [I] (R96): where I + X is inside memory (decision D7), V[k] holds MEM[I + k] for k = 0..X; the other
registers, I and all of memory are as before. -/
def Obligations.RegisterBlockLoaded : Prop :=
  ∀ (x : Reg) (s : State), s.i.toNat + x.val ≤ 0xFFF →
    decode (BitVec.ofNat 16 (0xF065 + 256 * x.val)) = .ldVMem x ∧
    ∃ t, exec (.ldVMem x) s = .next t ∧ { t with v := s.v } = { s with pc := s.pc + 2 } ∧
      (∀ k : Reg, k ≤ x → t.reg k = s.mem.read (s.i.toNat + k.val)) ∧ (∀ k : Reg, x < k → t.reg k = s.reg k)

/-- A block stored by FX55 comes back by FX65 at the same I, whatever the registers hold in between (R95, R96, R40). -/
def Obligations.StoreThenLoadRestores : Prop :=
  ∀ (x : Reg) (s : State), s.Inv → s.i.toNat + x.val ≤ 0xFFF →
    ∃ t, exec (.ldMemV x) s = .next t ∧
      ∀ w : State, w.i = t.i → w.mem = t.mem →
        ∃ u, exec (.ldVMem x) w = .next u ∧ (∀ k : Reg, k ≤ x → u.reg k = s.reg k) ∧
          (∀ k : Reg, x < k → u.reg k = w.reg k)

/-- A data access that would leave memory latches MEM_RANGE with FAULT_INFO = I and changes nothing else, for each of
the four instructions (R37, R112, R114; the spec's decisions D4, D7, D28). The address is the integer I + k, without
wrap. -/
def Obligations.DataAccessBeyondMemoryFaults : Prop :=
  ∀ (x y : Reg) (n : Nibble) (s : State),
    (0xFFF < s.i.toNat + 2 → exec (.ldB x) s = .next { s with
      faultCode := 4, faultPc := s.pc, faultOp := BitVec.ofNat 16 (0xF033 + 256 * x.val), faultInfo := s.i }) ∧
    (0xFFF < s.i.toNat + x.val → exec (.ldMemV x) s = .next { s with
      faultCode := 4, faultPc := s.pc, faultOp := BitVec.ofNat 16 (0xF055 + 256 * x.val), faultInfo := s.i }) ∧
    (0xFFF < s.i.toNat + x.val → exec (.ldVMem x) s = .next { s with
      faultCode := 4, faultPc := s.pc, faultOp := BitVec.ofNat 16 (0xF065 + 256 * x.val), faultInfo := s.i }) ∧
    (0 < n.toNat → 0xFFF < s.i.toNat + n.toNat - 1 → exec (.drw x y n) s = .next { s with
      faultCode := 4, faultPc := s.pc, faultInfo := s.i
      faultOp := BitVec.ofNat 16 (0xD000 + 256 * x.val + 16 * y.val + n.toNat) })

/-- A store is what the next fetch reads (R43): two registers stored by FX55 at consecutive addresses are the opcode
of a core whose PC then stands at the first. -/
def Obligations.StoreIsFetched : Prop :=
  ∀ (x k j : Reg) (s t : State), s.Inv → s.i.toNat + x.val ≤ 0xFFF → j.val = k.val + 1 → j ≤ x →
    exec (.ldMemV x) s = .next t →
    ∀ u : State, u.mem = t.mem → u.pc.toNat = s.i.toNat + k.val →
      u.opcodeAtPc = (s.reg k).toNat * 256 + (s.reg j).toNat

/-! ### Display (spec/44_display.md) -/

/-- CLS (R97): every cell 0 and DIRTY 1 (the spec's decision D13), for every X; nothing else changes, VF included. -/
def Obligations.ClearScreen : Prop :=
  ∀ (x : Nibble) (s : State),
    decode (BitVec.ofNat 16 (0x00E0 + 256 * x.toNat)) = .cls x ∧
    ∃ t, exec (.cls x) s = .next t ∧ (∀ px py, px < 64 → py < 32 → t.disp.cell px py = false) ∧ t.dirty = true ∧
      { t with disp := s.disp, dirty := s.dirty } = { s with pc := s.pc + 2 }

/-- DRW (R98, R99, R100), where the sprite lies inside memory: a cell inside the frame buffer is toggled exactly when
the sprite, drawn at the coordinates that V[x] and V[y] held before VF is written, has a set bit over it; DIRTY is 1;
no register but VF changes, nor anything else (the spec's decisions D3, D7, D10, D11, D14). -/
def Obligations.DrawTogglesCoveredCells : Prop :=
  ∀ (x y : Reg) (n : Nibble) (s : State), n.toNat = 0 ∨ s.i.toNat + n.toNat - 1 ≤ 0xFFF →
    decode (BitVec.ofNat 16 (0xD000 + 256 * x.val + 16 * y.val + n.toNat)) = .drw x y n ∧
    ∃ t, exec (.drw x y n) s = .next t ∧
      (∀ px py, px < 64 → py < 32 →
        (s.covers x y n.toNat px py → t.disp.cell px py = !s.disp.cell px py) ∧
        (¬ s.covers x y n.toNat px py → t.disp.cell px py = s.disp.cell px py)) ∧
      t.dirty = true ∧ (∀ k : Reg, k ≠ 15 → t.reg k = s.reg k) ∧
      { t with v := s.v, disp := s.disp, dirty := s.dirty } = { s with pc := s.pc + 2 }

/-- The collision flag (R101): VF is 1 exactly when some cell inside the frame buffer that the sprite toggles held 1 before
the draw, else 0; clipped pixels and 0 bits never count. It rests on the spec's decisions D7, D10 and D11 and, where X or
Y is 15, on D3: the coordinates are what V[x] and V[y] held before VF is written (R9, R98; assumption log 6). -/
def Obligations.CollisionFlag : Prop :=
  ∀ (x y : Reg) (n : Nibble) (s : State), n.toNat = 0 ∨ s.i.toNat + n.toNat - 1 ≤ 0xFFF →
    ∃ t, exec (.drw x y n) s = .next t ∧
      ((∃ px py, px < 64 ∧ py < 32 ∧ s.covers x y n.toNat px py ∧ s.disp.cell px py = true) → t.reg 15 = 1) ∧
      ((¬ ∃ px py, px < 64 ∧ py < 32 ∧ s.covers x y n.toNat px py ∧ s.disp.cell px py = true) → t.reg 15 = 0)

/-- The XOR law (R102): a second draw of the same sprite bytes at the same coordinates, with no other write to DISP in
between, restores the frame buffer, and reports VF = 1 exactly when some covered cell inside it held 0 before the first
draw. The second draw may name other registers and run in any state that agrees on I, the sprite, the coordinates and
DISP. Which cells are covered, and what VF reports, rest on the spec's decisions D3 where X or Y is 15, D7, D10 and D11
(assumption log 6). -/
def Obligations.DrawTwiceRestores : Prop :=
  ∀ (x y x' y' : Reg) (n : Nibble) (s t u : State), n.toNat = 0 ∨ s.i.toNat + n.toNat - 1 ≤ 0xFFF →
    exec (.drw x y n) s = .next t → u.disp = t.disp → u.i = s.i → u.reg x' = s.reg x → u.reg y' = s.reg y →
    (∀ r, r < n.toNat → u.mem.read (u.i.toNat + r) = s.mem.read (s.i.toNat + r)) →
    ∃ w, exec (.drw x' y' n) u = .next w ∧ w.disp = s.disp ∧
      (w.reg 15 = 1 ↔ ∃ px py, px < 64 ∧ py < 32 ∧ s.covers x y n.toNat px py ∧ s.disp.cell px py = false)

/-- DIRTY and DISP over all instructions (R103; the spec's decisions D13, D14): a committed CLS or DXYN sets DIRTY,
and no other instruction, nor a faulting one, changes DIRTY or a cell. -/
def Obligations.DirtySetOnlyByDraws : Prop :=
  ∀ (i : Instr) (s t : State), s.faultCode = 0 → exec i s = .next t →
    ((t.faultCode ≠ 0 → t.dirty = s.dirty ∧ t.disp = s.disp) ∧
     (t.faultCode = 0 →
      match i with
      | .cls _ | .drw _ _ _ => t.dirty = true
      | _ => t.dirty = s.dirty ∧ t.disp = s.disp))

/-- DIRTY is cleared only by CLEAR_DIRTY and RESET (R104; the spec's decision D15): both leave 0, no step clears it, nor
LOAD, nor SET_KEY. After a CLEAR_DIRTY a committed step leaves DIRTY at 1 exactly for CLS and every DXYN (R103; the spec's
decisions D13 and D14, assumption log 6). -/
def Obligations.DirtyClearedOnlyByHost : Prop :=
  (∀ s : State, hostClearDirty s = { s with dirty := false }) ∧
  (∀ (font : Vector Byte 80) (s : State), (hostReset font s).dirty = false) ∧
  (∀ s t : State, step s = .next t → s.dirty = true → t.dirty = true) ∧
  (∀ (b : List Byte) (s : State), (hostLoad b s).2.dirty = s.dirty) ∧
  (∀ (k : Fin 16) (down : Bool) (s : State), (hostSetKey k down s).dirty = s.dirty) ∧
  (∀ s t : State, (hostClearDirty s).ready → step (hostClearDirty s) = .next t → t.faultCode = 0 →
    (t.dirty = true ↔ (∃ x, decode s.fetchWord = .cls x) ∨ ∃ x y n, decode s.fetchWord = .drw x y n))

/-! ### Keypad and timers (spec/45_keys_timers.md) -/

/-- SKP and SKNP (R105, R106) with V[x] at most 15: PC is pc0 + 4 when taken and pc0 + 2 when not, and nothing else
changes (that a larger V[x] faults instead is the spec's decision D9). -/
def Obligations.SkipsOnKey : Prop :=
  ∀ (x : Reg) (s : State) (h : (s.reg x).toNat < 16),
    decode (BitVec.ofNat 16 (0xE09E + 256 * x.val)) = .skp x ∧
    decode (BitVec.ofNat 16 (0xE0A1 + 256 * x.val)) = .sknp x ∧
    exec (.skp x) s = .next { s with pc := if s.key[(s.reg x).toNat] = true then s.pc + 4 else s.pc + 2 } ∧
    exec (.sknp x) s = .next { s with pc := if s.key[(s.reg x).toNat] = true then s.pc + 2 else s.pc + 4 }

/-- LD V[x], K (R108) with V[x] at most 15: V[x] is the selected key as 0 or 1, at once, whatever the keys hold (the
spec's decisions D9, D12); no other register changes, nor anything else. -/
def Obligations.KeyReadAtOnce : Prop :=
  ∀ (x : Reg) (s : State) (h : (s.reg x).toNat < 16),
    decode (BitVec.ofNat 16 (0xF00A + 256 * x.val)) = .ldVK x ∧
    ∃ t, exec (.ldVK x) s = .next t ∧ t.reg x = (if s.key[(s.reg x).toNat] = true then 1 else 0) ∧
      (∀ k : Reg, k ≠ x → t.reg k = s.reg k) ∧ { t with v := s.v } = { s with pc := s.pc + 2 }

/-- A keypad index above 15 latches KEY_RANGE with FAULT_INFO = V[x] and changes nothing else, for each of the three
instructions (R112, R114; the spec's decisions D4, D9, D28). -/
def Obligations.KeyIndexBeyondKeypadFaults : Prop :=
  ∀ (x : Reg) (s : State), 15 < (s.reg x).toNat →
    exec (.skp x) s = .next { s with
      faultCode := 5, faultPc := s.pc, faultOp := BitVec.ofNat 16 (0xE09E + 256 * x.val)
      faultInfo := (s.reg x).setWidth 16 } ∧
    exec (.sknp x) s = .next { s with
      faultCode := 5, faultPc := s.pc, faultOp := BitVec.ofNat 16 (0xE0A1 + 256 * x.val)
      faultInfo := (s.reg x).setWidth 16 } ∧
    exec (.ldVK x) s = .next { s with
      faultCode := 5, faultPc := s.pc, faultOp := BitVec.ofNat 16 (0xF00A + 256 * x.val)
      faultInfo := (s.reg x).setWidth 16 }

/-- R107, R109: FX07 reads DT as it is before the step's tick; FX15 writes DT, and the same step's tick then takes one
off a nonzero value. -/
def Obligations.DelayTimerReadAndWritten : Prop :=
  ∀ (x : Reg) (s : State),
    decode (BitVec.ofNat 16 (0xF007 + 256 * x.val)) = .ldVDt x ∧
    decode (BitVec.ofNat 16 (0xF015 + 256 * x.val)) = .ldDtV x ∧
    (∃ t, exec (.ldVDt x) s = .next t ∧ t.reg x = s.dt ∧ (∀ k : Reg, k ≠ x → t.reg k = s.reg k) ∧
      { t with v := s.v } = { s with pc := s.pc + 2 }) ∧
    exec (.ldDtV x) s = .next { s with pc := s.pc + 2, dt := s.reg x } ∧
    (s.ready → s.opcodeAtPc = 0xF007 + 256 * x.val →
      ∃ t, step s = .next t ∧ t.reg x = s.dt ∧ t.dt.toNat = s.dt.toNat - 1) ∧
    (s.ready → s.opcodeAtPc = 0xF015 + 256 * x.val →
      ∃ t, step s = .next t ∧ t.dt.toNat = (s.reg x).toNat - 1)

/-- R110: FX18 writes ST, and the same step's tick then takes one off a nonzero value: with V[x] = 1 SOUND is 0 after
the step; with V[x] = 2 it is 1 after this step and 0 after the next committed one that writes no ST. -/
def Obligations.SoundTimerWritten : Prop :=
  ∀ (x : Reg) (s : State),
    decode (BitVec.ofNat 16 (0xF018 + 256 * x.val)) = .ldStV x ∧
    exec (.ldStV x) s = .next { s with pc := s.pc + 2, st := s.reg x } ∧
    (s.ready → s.opcodeAtPc = 0xF018 + 256 * x.val →
      ∃ t, step s = .next t ∧ t.faultCode = 0 ∧ t.st.toNat = (s.reg x).toNat - 1 ∧
        (s.reg x = 1 → t.sound = false) ∧
        (s.reg x = 2 → t.sound = true ∧
          ∀ u, t.pc.toNat + 1 ≤ 0xFFF → (∀ y, decode t.fetchWord ≠ .ldStV y) → step t = .next u → u.faultCode = 0 →
            u.sound = false))

/-! ### Faults (spec/60_exceptions.md) -/

/-- A fault is precise (R114, R115; the spec's decisions D4, D28): the state after the faulting step is the state before
it but for the latch, which holds the address of the instruction and, unless nothing was fetched, the opcode fetched. -/
def Obligations.FaultIsPrecise : Prop :=
  ∀ s t : State, s.faultCode = 0 → step s = .next t → t.faultCode ≠ 0 →
    { t with faultCode := 0, faultPc := s.faultPc, faultOp := s.faultOp, faultInfo := s.faultInfo } = s ∧
    t.faultPc = s.pc ∧ (t.faultCode = 3 → t.faultOp = 0 ∧ t.faultInfo = s.pc ∧ 0xFFF < s.pc.toNat + 1) ∧
    (t.faultCode ≠ 3 → s.ready ∧ t.faultOp.toNat = s.opcodeAtPc)

/-- The table of causes (R112, R118; the spec's decisions D4 to D9): a step of a running core always answers a next
state, and the code it leaves is the one whose condition holds, or NONE. -/
def Obligations.FaultCausesExactly : Prop :=
  ∀ s : State, s.Inv → s.faultCode = 0 →
    ∃ t, step s = .next t ∧
      t.faultCode.toNat =
        if 0xFFF < s.pc.toNat + 1 then 3
        else match decode s.fetchWord with
          | .call _ => if s.sp.toNat = 16 then 1 else 0
          | .ret _ => if s.sp.toNat = 0 then 2 else 0
          | .drw _ _ n => if 0 < n.toNat ∧ 0xFFF < s.i.toNat + n.toNat - 1 then 4 else 0
          | .ldB _ => if 0xFFF < s.i.toNat + 2 then 4 else 0
          | .ldMemV x | .ldVMem x => if 0xFFF < s.i.toNat + x.val then 4 else 0
          | .skp x | .sknp x | .ldVK x => if 15 < (s.reg x).toNat then 5 else 0
          | _ => 0

/-- R113, over the spec's own fault latch (its decision D4): no other instruction can fault, and no encoding faults at
decode; a sprite pixel outside the frame buffer is no fault, nor is a program that is too long, which LOAD rejects. -/
def Obligations.OnlyNamedInstructionsFault : Prop :=
  (∀ (op : Word) (s : State),
    match decode op with
    | .call _ | .ret _ | .drw _ _ _ | .ldB _ | .ldMemV _ | .ldVMem _ | .skp _ | .sknp _ | .ldVK _ => True
    | i => ∃ t, exec i s = .next t ∧ t.faultCode = s.faultCode ∧ t.faultPc = s.faultPc ∧ t.faultOp = s.faultOp ∧
        t.faultInfo = s.faultInfo) ∧
  (∀ (x y : Reg) (n : Nibble) (s : State), s.i.toNat + n.toNat ≤ 4096 →
    ∃ t, exec (.drw x y n) s = .next t ∧ t.faultCode = s.faultCode) ∧
  (∀ (b : List Byte) (s : State), 3584 < b.length →
    (hostLoad b s).1 = .rejected ∧ (hostLoad b s).2.faultCode = s.faultCode)

/-! ### Reset, load and listing (spec/70_reset_and_hazards.md, spec/30_encoding.md) -/

/-- The state after RESET (R127, R117), every element, for every FONT and from every state before it, one with a fault
latched among them, and for `State.reset`. That DIRTY and the latch reset to 0 are the spec's decisions D15 and D26. The
80 font bytes are the FONT that RESET was given, and for `State.reset` the default FONT, written out from the table of
R129 (D17; assumption log 2). Nothing is said of the model's own counter. -/
def Obligations.ResetValues : Prop :=
  (∀ t : State, (t = State.reset ∨ ∃ (font : Vector Byte 80) (s : State), t = hostReset font s) →
    (∀ k : Reg, t.reg k = 0) ∧ t.i = 0 ∧ t.pc = 0x200 ∧ t.sp = 0 ∧ (∀ (k : Nat) (h : k < 16), t.stack[k] = 0) ∧
    t.dt = 0 ∧ t.st = 0 ∧ (∀ px py, px < 64 → py < 32 → t.disp.cell px py = false) ∧
    (∀ (k : Nat) (h : k < 16), t.key[k] = false) ∧ t.dirty = false ∧ t.faultCode = 0 ∧ t.faultPc = 0 ∧
    t.faultOp = 0 ∧ t.faultInfo = 0 ∧ (∀ a, 0x50 ≤ a → a ≤ 0xFFF → t.mem.read a = 0)) ∧
  (∀ (font : Vector Byte 80) (s : State) (a : Nat) (h : a < 80), (hostReset font s).mem.read a = font[a]) ∧
  (List.range 80).map State.reset.mem.read =
    [0xF0, 0x90, 0x90, 0x90, 0xF0] ++ [0x20, 0x60, 0x20, 0x20, 0x70] ++
    [0xF0, 0x10, 0xF0, 0x80, 0xF0] ++ [0xF0, 0x10, 0xF0, 0x10, 0xF0] ++
    [0x90, 0x90, 0xF0, 0x10, 0x10] ++ [0xF0, 0x80, 0xF0, 0x10, 0xF0] ++
    [0xF0, 0x80, 0xF0, 0x90, 0xF0] ++ [0xF0, 0x10, 0x20, 0x40, 0x40] ++
    [0xF0, 0x90, 0xF0, 0x90, 0xF0] ++ [0xF0, 0x90, 0xF0, 0x10, 0xF0] ++
    [0xF0, 0x90, 0xF0, 0x90, 0x90] ++ [0xE0, 0x90, 0xE0, 0x90, 0xE0] ++
    [0xF0, 0x80, 0x80, 0x80, 0xF0] ++ [0xE0, 0x90, 0x90, 0x90, 0xE0] ++
    [0xF0, 0x80, 0xF0, 0x80, 0xF0] ++ [0xF0, 0x80, 0xF0, 0x80, 0x80]

/-- R128: for every FONT, RESET writes its 80 bytes to 0x000..0x04F, glyph D at D*5 .. D*5 + 4. -/
def Obligations.ResetWritesFont : Prop :=
  ∀ (font : Vector Byte 80) (s : State) (d k : Nat) (hd : d < 16) (hk : k < 5),
    (hostReset font s).mem.read (d * 5 + k) = font[d * 5 + k]

/-- LOAD of at most 3584 bytes (R130): byte i of the buffer stands at 0x200 + i, every other byte is as before, and
nothing else changes. That LOAD may come between any two steps is the spec's decision D20. -/
def Obligations.LoadCopiesProgram : Prop :=
  ∀ (b : List Byte) (s : State), s.Inv → b.length ≤ 3584 →
    (hostLoad b s).1 = .accepted ∧ { (hostLoad b s).2 with mem := s.mem } = s ∧
    (∀ (k : Nat) (h : k < b.length), (hostLoad b s).2.mem.read (0x200 + k) = b[k]) ∧
    ∀ a, a < 0x200 ∨ 0x200 + b.length ≤ a → (hostLoad b s).2.mem.read a = s.mem.read a

/-- R131: LOAD of more than 3584 bytes is rejected: no state element changes, the rejection is reported, and the next
STEP runs as if no LOAD had been issued. -/
def Obligations.LoadTooLongRejected : Prop :=
  ∀ (b : List Byte) (s : State), 3584 < b.length →
    (hostLoad b s).1 = .rejected ∧ (hostLoad b s).2 = s ∧ step (hostLoad b s).2 = step s

/-- SET_KEY (R23, R26) writes one key and nothing else, and no step writes a key: the keypad is read-only from the
executor's side. -/
def Obligations.KeypadWrittenOnlyByHost : Prop :=
  (∀ (k j : Fin 16) (down : Bool) (s : State),
    (hostSetKey k down s).key[j.val] = (if j = k then down else s.key[j.val]) ∧
    { hostSetKey k down s with key := s.key } = s) ∧
  ∀ s t : State, step s = .next t → t.key = s.key

/-- The listing (R58): the two example lines exactly, and one line per 2-byte word of a buffer, at its byte offset,
whatever the word. (A last odd byte has no line: assumption log 11.) -/
def Obligations.ListingLines : Prop :=
  listingLine 0 0x00E0 = "ADDR 0x0000: CLS\n" ∧ listingLine 0 0xA2F0 = "ADDR 0x0000: LD I, 0x2f0\n" ∧
  ∀ (b : List Byte), (listing 0 b).length = b.length / 2 ∧
    ∀ (k : Nat) (h : 2 * k + 1 < b.length),
      (listing 0 b)[k]? = some (listingLine (2 * k) (wordOfBytes b[2 * k] b[2 * k + 1]))

/-! ### The whole machine -/

/-- Which instructions write what, over all instructions that commit (the tables of R19 and R31; R13, R15, R16, R17, R18,
R21, R23): memory only FX33 and FX55, I only ANNN, FX1E and FX29, SP and STACK only CALL and RET, DT only FX15, ST only
FX18, DISP only CLS and DXYN, KEY none, and the model's own counter only CXNN (assumption log 1). V, PC, DIRTY and the
fault latch have statements of their own (WritersOfVF and the frames, ProvisionalPc, DirtySetOnlyByDraws,
FaultIsPrecise). -/
def Obligations.WritersOfMemoryIndexStackTimersScreen : Prop :=
  ∀ (i : Instr) (s t : State), s.faultCode = 0 → exec i s = .next t → t.faultCode = 0 →
    (t.mem = s.mem ∨ (∃ x, i = .ldB x) ∨ ∃ x, i = .ldMemV x) ∧
    (t.i = s.i ∨ (∃ a, i = .ldI a) ∨ (∃ x, i = .addI x) ∨ ∃ x, i = .ldF x) ∧
    (t.sp = s.sp ∧ t.stack = s.stack ∨ (∃ a, i = .call a) ∨ ∃ x, i = .ret x) ∧
    (t.dt = s.dt ∨ ∃ x, i = .ldDtV x) ∧ (t.st = s.st ∨ ∃ x, i = .ldStV x) ∧
    (t.disp = s.disp ∨ (∃ x, i = .cls x) ∨ ∃ x y n, i = .drw x y n) ∧
    (t.rndCount = s.rndCount ∨ ∃ x nn, i = .rnd x nn) ∧ t.key = s.key

/-- VF over all instructions that commit (R12): only the six flag writers change VF other than as an ordinary
destination, which is V[15] itself, or FX65 with X = 15. -/
def Obligations.WritersOfVF : Prop :=
  ∀ (i : Instr) (s t : State), s.faultCode = 0 → exec i s = .next t → t.faultCode = 0 →
    match i with
    | .addReg _ _ | .sub _ _ | .shr _ _ | .subn _ _ | .shl _ _ | .drw _ _ _ => True
    | .ldImm x _ | .addImm x _ | .ldReg x _ | .orReg x _ | .andReg x _ | .xorReg x _ | .rnd x _ | .ldVDt x | .ldVK x
    | .ldVMem x => x ≠ 15 → t.reg 15 = s.reg 15
    | _ => t.v = s.v

/-- The state after RESET meets the invariant. -/
def Obligations.ResetMeetsInvariant : Prop :=
  State.reset.Inv ∧ ∀ (font : Vector Byte 80) (s : State), (hostReset font s).Inv

/-- Every step keeps the invariant: memory stays in canonical form inside 0x000..0xFFF, SP in 0..16, FAULT_CODE in 0..5,
and nothing is latched while it is NONE. -/
def Obligations.StepKeepsInvariant : Prop :=
  ∀ s t : State, s.Inv → step s = .next t → t.Inv

/-- From a state that meets the invariant, every operation of the block's interface answers a next state that meets
it: a STEP never stops the model, in a halted core neither. -/
def Obligations.HostOperationsKeepInvariant : Prop :=
  ∀ (op : HostOp) (s : State), s.Inv → ∃ t, hostApply op s = .next t ∧ t.Inv
end

