-- ==== Sys2Proof/Laws/Encoding.lean ====
section
/-! SUPPORT. The fields of an opcode as numbers, the fields of a packed word, the opcode table's masks as fields, and
the two bytes of a word. -/

namespace Sys2Proof

/-! ### Fields as numbers (R46) -/

theorem fieldC_toNat (op : Word) : (fieldC op).toNat = op.toNat / 4096 % 16 := by
  simp [fieldC, Nat.shiftRight_eq_div_pow]

theorem fieldX_toNat (op : Word) : (fieldX op).toNat = op.toNat / 256 % 16 := by
  simp [fieldX, Nat.shiftRight_eq_div_pow]

theorem fieldY_toNat (op : Word) : (fieldY op).toNat = op.toNat / 16 % 16 := by
  simp [fieldY, Nat.shiftRight_eq_div_pow]

theorem fieldN_toNat (op : Word) : (fieldN op).toNat = op.toNat % 16 := by
  simp [fieldN]

theorem fieldNN_toNat (op : Word) : (fieldNN op).toNat = op.toNat % 256 := by
  simp [fieldNN]

theorem fieldNNN_toNat (op : Word) : (fieldNNN op).toNat = op.toNat % 4096 := by
  simp [fieldNNN]

theorem regOf_val (f : Nibble) : (regOf f).val = f.toNat := rfl

/-! ### Packed words -/

theorem packXYN_toNat {c x y n : Nat} (hc : c < 16) (hx : x < 16) (hy : y < 16) (hn : n < 16) :
    (packXYN c x y n).toNat = c * 4096 + x * 256 + y * 16 + n := by
  rw [packXYN, BitVec.toNat_ofNat]
  omega

theorem packXNN_toNat {c x : Nat} (nn : Byte) (hc : c < 16) (hx : x < 16) :
    (packXNN c x nn).toNat = c * 4096 + x * 256 + nn.toNat := by
  rw [packXNN, BitVec.toNat_ofNat]
  omega

theorem packNNN_toNat {c : Nat} (nnn : Addr12) (hc : c < 16) : (packNNN c nnn).toNat = c * 4096 + nnn.toNat := by
  rw [packNNN, BitVec.toNat_ofNat]
  omega

theorem fieldC_packXYN {c x y n : Nat} (hc : c < 16) (hx : x < 16) (hy : y < 16) (hn : n < 16) :
    fieldC (packXYN c x y n) = BitVec.ofNat 4 c := by
  apply BitVec.eq_of_toNat_eq
  rw [fieldC_toNat, packXYN_toNat hc hx hy hn, BitVec.toNat_ofNat]
  omega

theorem fieldN_packXYN {c x y n : Nat} (hc : c < 16) (hx : x < 16) (hy : y < 16) (hn : n < 16) :
    fieldN (packXYN c x y n) = BitVec.ofNat 4 n := by
  apply BitVec.eq_of_toNat_eq
  rw [fieldN_toNat, packXYN_toNat hc hx hy hn, BitVec.toNat_ofNat]
  omega

theorem fieldC_packXNN {c x : Nat} (nn : Byte) (hc : c < 16) (hx : x < 16) :
    fieldC (packXNN c x nn) = BitVec.ofNat 4 c := by
  apply BitVec.eq_of_toNat_eq
  rw [fieldC_toNat, packXNN_toNat nn hc hx, BitVec.toNat_ofNat]
  omega

theorem fieldNN_packXNN {c x : Nat} (nn : Byte) (hc : c < 16) (hx : x < 16) : fieldNN (packXNN c x nn) = nn := by
  apply BitVec.eq_of_toNat_eq
  rw [fieldNN_toNat, packXNN_toNat nn hc hx]
  omega

theorem fieldC_packNNN {c : Nat} (nnn : Addr12) (hc : c < 16) : fieldC (packNNN c nnn) = BitVec.ofNat 4 c := by
  apply BitVec.eq_of_toNat_eq
  rw [fieldC_toNat, packNNN_toNat nnn hc, BitVec.toNat_ofNat]
  omega

/-! ### The two bytes of a word (R35) -/

theorem highByte_toNat (op : Word) : (highByte op).toNat = op.toNat / 256 := by
  have := op.isLt
  simp only [highByte, BitVec.extractLsb'_toNat, Nat.shiftRight_eq_div_pow]
  omega

theorem lowByte_toNat (op : Word) : (lowByte op).toNat = op.toNat % 256 := by
  simp [lowByte]

theorem wordOfBytes_toNat (hi lo : Byte) : (wordOfBytes hi lo).toNat = hi.toNat * 256 + lo.toNat := by
  rw [wordOfBytes, BitVec.toNat_ofNat]
  omega

/-! ### The masks of the opcode table -/

theorem and_class_mask (op : Word) : op &&& 0xF000#16 = (fieldC op).setWidth 16 <<< 12 := by
  apply BitVec.eq_of_getElem_eq
  intro k hk
  interval_cases k <;> simp [fieldC]

theorem and_class_nn_mask (op : Word) :
    op &&& 0xF0FF#16 = (fieldC op).setWidth 16 <<< 12 ||| (fieldNN op).setWidth 16 := by
  apply BitVec.eq_of_getElem_eq
  intro k hk
  interval_cases k <;> simp [fieldC, fieldNN]

theorem and_class_n_mask (op : Word) :
    op &&& 0xF00F#16 = (fieldC op).setWidth 16 <<< 12 ||| (fieldN op).setWidth 16 := by
  apply BitVec.eq_of_getElem_eq
  intro k hk
  interval_cases k <;> simp [fieldC, fieldN]

end Sys2Proof
end

