-- ==== Sys2Proof/Laws/Decode.lean ====
section
/-! SUPPORT. The decoder as case distinctions on the fields, and the fields of a word given as a number. -/

namespace Sys2Proof

/-! ### The fields of a word whose value is known -/

theorem fields_of_xyn {c x y n : Nat} (op : Word) (h : op.toNat = c * 4096 + x * 256 + y * 16 + n) (hx : x < 16)
    (hy : y < 16) (hn : n < 16) :
    fieldC op = BitVec.ofNat 4 c ∧ fieldX op = BitVec.ofNat 4 x ∧ fieldY op = BitVec.ofNat 4 y ∧
      fieldN op = BitVec.ofNat 4 n := by
  refine ⟨?_, ?_, ?_, ?_⟩ <;> apply BitVec.eq_of_toNat_eq <;>
    simp only [fieldC_toNat, fieldX_toNat, fieldY_toNat, fieldN_toNat, BitVec.toNat_ofNat, h] <;> omega

theorem fields_of_xnn {c x : Nat} (nn : Byte) (op : Word) (h : op.toNat = c * 4096 + x * 256 + nn.toNat) (hx : x < 16) :
    fieldC op = BitVec.ofNat 4 c ∧ fieldX op = BitVec.ofNat 4 x ∧ fieldNN op = nn := by
  refine ⟨?_, ?_, ?_⟩ <;> apply BitVec.eq_of_toNat_eq <;>
    simp only [fieldC_toNat, fieldX_toNat, fieldNN_toNat, BitVec.toNat_ofNat, h] <;> omega

theorem fields_of_nnn {c : Nat} (nnn : Addr12) (op : Word) (h : op.toNat = c * 4096 + nnn.toNat) :
    fieldC op = BitVec.ofNat 4 c ∧ fieldNN op = nnn.setWidth 8 ∧ fieldNNN op = nnn := by
  refine ⟨?_, ?_, ?_⟩ <;> apply BitVec.eq_of_toNat_eq <;>
    simp only [fieldC_toNat, fieldNN_toNat, fieldNNN_toNat, BitVec.toNat_ofNat, BitVec.toNat_setWidth, h] <;> omega

theorem regOf_ofNat_val (x : Reg) : regOf (BitVec.ofNat 4 x.val) = x := by
  apply Fin.ext
  rw [regOf_val, BitVec.toNat_ofNat]
  omega

theorem nibble_ofNat_toNat (n : Nibble) : BitVec.ofNat 4 n.toNat = n := by
  apply BitVec.eq_of_toNat_eq
  rw [BitVec.toNat_ofNat]
  omega

/-! ### The decoder -/

/-- Class 0x8 by its sub-code N (R52). -/
theorem decodeClass8_eq (op : Word) : decodeClass8 op =
    let x := regOf (fieldX op)
    let y := regOf (fieldY op)
    if fieldN op = 0x0#4 then .ldReg x y else if fieldN op = 0x1#4 then .orReg x y
    else if fieldN op = 0x2#4 then .andReg x y else if fieldN op = 0x3#4 then .xorReg x y
    else if fieldN op = 0x4#4 then .addReg x y else if fieldN op = 0x5#4 then .sub x y
    else if fieldN op = 0x6#4 then .shr x y else if fieldN op = 0x7#4 then .subn x y
    else if fieldN op = 0xE#4 then .shl x y else .nop8 (fieldX op) (fieldY op) (fieldN op) := by
  unfold decodeClass8
  split <;> simp_all

/-- Class 0xE by its sub-code NN (R53). -/
theorem decodeClassE_eq (op : Word) : decodeClassE op =
    let x := regOf (fieldX op)
    if fieldNN op = 0x9E#8 then .skp x else if fieldNN op = 0xA1#8 then .sknp x
    else .nopE (fieldX op) (fieldNN op) := by
  unfold decodeClassE
  split <;> simp_all

/-- Class 0xF by its sub-code NN (R54). -/
theorem decodeClassF_eq (op : Word) : decodeClassF op =
    let x := regOf (fieldX op)
    if fieldNN op = 0x07#8 then .ldVDt x else if fieldNN op = 0x0A#8 then .ldVK x
    else if fieldNN op = 0x15#8 then .ldDtV x else if fieldNN op = 0x18#8 then .ldStV x
    else if fieldNN op = 0x1E#8 then .addI x else if fieldNN op = 0x29#8 then .ldF x
    else if fieldNN op = 0x33#8 then .ldB x else if fieldNN op = 0x55#8 then .ldMemV x
    else if fieldNN op = 0x65#8 then .ldVMem x else .nopF (fieldX op) (fieldNN op) := by
  unfold decodeClassF
  split <;> simp_all

/-- Class 0x0 by its sub-code NN (R50). -/
theorem decodeClass0_eq (op : Word) : decodeClass0 op =
    if fieldNN op = 0xE0#8 then .cls (fieldX op) else if fieldNN op = 0xEE#8 then .ret (fieldX op)
    else .sys (fieldNNN op) := by
  unfold decodeClass0
  split <;> simp_all

/-- The decoder, class by class (R49). -/
theorem decode_eq (op : Word) : decode op =
    let x := regOf (fieldX op)
    let y := regOf (fieldY op)
    if fieldC op = 0x0#4 then decodeClass0 op else if fieldC op = 0x1#4 then .jp (fieldNNN op)
    else if fieldC op = 0x2#4 then .call (fieldNNN op) else if fieldC op = 0x3#4 then .seImm x (fieldNN op)
    else if fieldC op = 0x4#4 then .sneImm x (fieldNN op) else if fieldC op = 0x5#4 then .seReg x y (fieldN op)
    else if fieldC op = 0x6#4 then .ldImm x (fieldNN op) else if fieldC op = 0x7#4 then .addImm x (fieldNN op)
    else if fieldC op = 0x8#4 then decodeClass8 op else if fieldC op = 0x9#4 then .sneReg x y (fieldN op)
    else if fieldC op = 0xA#4 then .ldI (fieldNNN op) else if fieldC op = 0xB#4 then .jpV0 (fieldNNN op)
    else if fieldC op = 0xC#4 then .rnd x (fieldNN op) else if fieldC op = 0xD#4 then .drw x y (fieldN op)
    else if fieldC op = 0xE#4 then decodeClassE op else decodeClassF op := by
  unfold decode
  split <;> simp_all
end Sys2Proof
end

