-- ==== Sys2Proof/Laws/State.lean ====
section
/-! SUPPORT. What each named update of the state leaves in each field: one lemma per field per update, by rfl, so that no
proof unfolds a record update. -/

namespace Sys2Proof.Machine

/-! ### setReg -/

@[simp] theorem setReg_v (s : State) (x : Reg) (b : Byte) : (s.setReg x b).v = s.v.set x.val b := rfl
@[simp] theorem setReg_i (s : State) (x : Reg) (b : Byte) : (s.setReg x b).i = s.i := rfl
@[simp] theorem setReg_pc (s : State) (x : Reg) (b : Byte) : (s.setReg x b).pc = s.pc := rfl
@[simp] theorem setReg_sp (s : State) (x : Reg) (b : Byte) : (s.setReg x b).sp = s.sp := rfl
@[simp] theorem setReg_stack (s : State) (x : Reg) (b : Byte) : (s.setReg x b).stack = s.stack := rfl
@[simp] theorem setReg_dt (s : State) (x : Reg) (b : Byte) : (s.setReg x b).dt = s.dt := rfl
@[simp] theorem setReg_st (s : State) (x : Reg) (b : Byte) : (s.setReg x b).st = s.st := rfl
@[simp] theorem setReg_mem (s : State) (x : Reg) (b : Byte) : (s.setReg x b).mem = s.mem := rfl
@[simp] theorem setReg_disp (s : State) (x : Reg) (b : Byte) : (s.setReg x b).disp = s.disp := rfl
@[simp] theorem setReg_dirty (s : State) (x : Reg) (b : Byte) : (s.setReg x b).dirty = s.dirty := rfl
@[simp] theorem setReg_key (s : State) (x : Reg) (b : Byte) : (s.setReg x b).key = s.key := rfl
@[simp] theorem setReg_faultCode (s : State) (x : Reg) (b : Byte) : (s.setReg x b).faultCode = s.faultCode := rfl
@[simp] theorem setReg_faultPc (s : State) (x : Reg) (b : Byte) : (s.setReg x b).faultPc = s.faultPc := rfl
@[simp] theorem setReg_faultOp (s : State) (x : Reg) (b : Byte) : (s.setReg x b).faultOp = s.faultOp := rfl
@[simp] theorem setReg_faultInfo (s : State) (x : Reg) (b : Byte) : (s.setReg x b).faultInfo = s.faultInfo := rfl
@[simp] theorem setReg_rndCount (s : State) (x : Reg) (b : Byte) : (s.setReg x b).rndCount = s.rndCount := rfl

/-! ### setI -/

@[simp] theorem setI_v (s : State) (a : Word) : (s.setI a).v = s.v := rfl
@[simp] theorem setI_i (s : State) (a : Word) : (s.setI a).i = a := rfl
@[simp] theorem setI_pc (s : State) (a : Word) : (s.setI a).pc = s.pc := rfl
@[simp] theorem setI_sp (s : State) (a : Word) : (s.setI a).sp = s.sp := rfl
@[simp] theorem setI_stack (s : State) (a : Word) : (s.setI a).stack = s.stack := rfl
@[simp] theorem setI_dt (s : State) (a : Word) : (s.setI a).dt = s.dt := rfl
@[simp] theorem setI_st (s : State) (a : Word) : (s.setI a).st = s.st := rfl
@[simp] theorem setI_mem (s : State) (a : Word) : (s.setI a).mem = s.mem := rfl
@[simp] theorem setI_disp (s : State) (a : Word) : (s.setI a).disp = s.disp := rfl
@[simp] theorem setI_dirty (s : State) (a : Word) : (s.setI a).dirty = s.dirty := rfl
@[simp] theorem setI_key (s : State) (a : Word) : (s.setI a).key = s.key := rfl
@[simp] theorem setI_faultCode (s : State) (a : Word) : (s.setI a).faultCode = s.faultCode := rfl
@[simp] theorem setI_faultPc (s : State) (a : Word) : (s.setI a).faultPc = s.faultPc := rfl
@[simp] theorem setI_faultOp (s : State) (a : Word) : (s.setI a).faultOp = s.faultOp := rfl
@[simp] theorem setI_faultInfo (s : State) (a : Word) : (s.setI a).faultInfo = s.faultInfo := rfl
@[simp] theorem setI_rndCount (s : State) (a : Word) : (s.setI a).rndCount = s.rndCount := rfl

/-! ### setPc -/

@[simp] theorem setPc_v (s : State) (a : Word) : (s.setPc a).v = s.v := rfl
@[simp] theorem setPc_i (s : State) (a : Word) : (s.setPc a).i = s.i := rfl
@[simp] theorem setPc_pc (s : State) (a : Word) : (s.setPc a).pc = a := rfl
@[simp] theorem setPc_sp (s : State) (a : Word) : (s.setPc a).sp = s.sp := rfl
@[simp] theorem setPc_stack (s : State) (a : Word) : (s.setPc a).stack = s.stack := rfl
@[simp] theorem setPc_dt (s : State) (a : Word) : (s.setPc a).dt = s.dt := rfl
@[simp] theorem setPc_st (s : State) (a : Word) : (s.setPc a).st = s.st := rfl
@[simp] theorem setPc_mem (s : State) (a : Word) : (s.setPc a).mem = s.mem := rfl
@[simp] theorem setPc_disp (s : State) (a : Word) : (s.setPc a).disp = s.disp := rfl
@[simp] theorem setPc_dirty (s : State) (a : Word) : (s.setPc a).dirty = s.dirty := rfl
@[simp] theorem setPc_key (s : State) (a : Word) : (s.setPc a).key = s.key := rfl
@[simp] theorem setPc_faultCode (s : State) (a : Word) : (s.setPc a).faultCode = s.faultCode := rfl
@[simp] theorem setPc_faultPc (s : State) (a : Word) : (s.setPc a).faultPc = s.faultPc := rfl
@[simp] theorem setPc_faultOp (s : State) (a : Word) : (s.setPc a).faultOp = s.faultOp := rfl
@[simp] theorem setPc_faultInfo (s : State) (a : Word) : (s.setPc a).faultInfo = s.faultInfo := rfl
@[simp] theorem setPc_rndCount (s : State) (a : Word) : (s.setPc a).rndCount = s.rndCount := rfl

/-! ### advance -/

@[simp] theorem advance_v (s : State) : (s.advance).v = s.v := rfl
@[simp] theorem advance_i (s : State) : (s.advance).i = s.i := rfl
@[simp] theorem advance_pc (s : State) : (s.advance).pc = s.pc + 2 := rfl
@[simp] theorem advance_sp (s : State) : (s.advance).sp = s.sp := rfl
@[simp] theorem advance_stack (s : State) : (s.advance).stack = s.stack := rfl
@[simp] theorem advance_dt (s : State) : (s.advance).dt = s.dt := rfl
@[simp] theorem advance_st (s : State) : (s.advance).st = s.st := rfl
@[simp] theorem advance_mem (s : State) : (s.advance).mem = s.mem := rfl
@[simp] theorem advance_disp (s : State) : (s.advance).disp = s.disp := rfl
@[simp] theorem advance_dirty (s : State) : (s.advance).dirty = s.dirty := rfl
@[simp] theorem advance_key (s : State) : (s.advance).key = s.key := rfl
@[simp] theorem advance_faultCode (s : State) : (s.advance).faultCode = s.faultCode := rfl
@[simp] theorem advance_faultPc (s : State) : (s.advance).faultPc = s.faultPc := rfl
@[simp] theorem advance_faultOp (s : State) : (s.advance).faultOp = s.faultOp := rfl
@[simp] theorem advance_faultInfo (s : State) : (s.advance).faultInfo = s.faultInfo := rfl
@[simp] theorem advance_rndCount (s : State) : (s.advance).rndCount = s.rndCount := rfl

/-! ### setDt -/

@[simp] theorem setDt_v (s : State) (b : Byte) : (s.setDt b).v = s.v := rfl
@[simp] theorem setDt_i (s : State) (b : Byte) : (s.setDt b).i = s.i := rfl
@[simp] theorem setDt_pc (s : State) (b : Byte) : (s.setDt b).pc = s.pc := rfl
@[simp] theorem setDt_sp (s : State) (b : Byte) : (s.setDt b).sp = s.sp := rfl
@[simp] theorem setDt_stack (s : State) (b : Byte) : (s.setDt b).stack = s.stack := rfl
@[simp] theorem setDt_dt (s : State) (b : Byte) : (s.setDt b).dt = b := rfl
@[simp] theorem setDt_st (s : State) (b : Byte) : (s.setDt b).st = s.st := rfl
@[simp] theorem setDt_mem (s : State) (b : Byte) : (s.setDt b).mem = s.mem := rfl
@[simp] theorem setDt_disp (s : State) (b : Byte) : (s.setDt b).disp = s.disp := rfl
@[simp] theorem setDt_dirty (s : State) (b : Byte) : (s.setDt b).dirty = s.dirty := rfl
@[simp] theorem setDt_key (s : State) (b : Byte) : (s.setDt b).key = s.key := rfl
@[simp] theorem setDt_faultCode (s : State) (b : Byte) : (s.setDt b).faultCode = s.faultCode := rfl
@[simp] theorem setDt_faultPc (s : State) (b : Byte) : (s.setDt b).faultPc = s.faultPc := rfl
@[simp] theorem setDt_faultOp (s : State) (b : Byte) : (s.setDt b).faultOp = s.faultOp := rfl
@[simp] theorem setDt_faultInfo (s : State) (b : Byte) : (s.setDt b).faultInfo = s.faultInfo := rfl
@[simp] theorem setDt_rndCount (s : State) (b : Byte) : (s.setDt b).rndCount = s.rndCount := rfl

/-! ### setSt -/

@[simp] theorem setSt_v (s : State) (b : Byte) : (s.setSt b).v = s.v := rfl
@[simp] theorem setSt_i (s : State) (b : Byte) : (s.setSt b).i = s.i := rfl
@[simp] theorem setSt_pc (s : State) (b : Byte) : (s.setSt b).pc = s.pc := rfl
@[simp] theorem setSt_sp (s : State) (b : Byte) : (s.setSt b).sp = s.sp := rfl
@[simp] theorem setSt_stack (s : State) (b : Byte) : (s.setSt b).stack = s.stack := rfl
@[simp] theorem setSt_dt (s : State) (b : Byte) : (s.setSt b).dt = s.dt := rfl
@[simp] theorem setSt_st (s : State) (b : Byte) : (s.setSt b).st = b := rfl
@[simp] theorem setSt_mem (s : State) (b : Byte) : (s.setSt b).mem = s.mem := rfl
@[simp] theorem setSt_disp (s : State) (b : Byte) : (s.setSt b).disp = s.disp := rfl
@[simp] theorem setSt_dirty (s : State) (b : Byte) : (s.setSt b).dirty = s.dirty := rfl
@[simp] theorem setSt_key (s : State) (b : Byte) : (s.setSt b).key = s.key := rfl
@[simp] theorem setSt_faultCode (s : State) (b : Byte) : (s.setSt b).faultCode = s.faultCode := rfl
@[simp] theorem setSt_faultPc (s : State) (b : Byte) : (s.setSt b).faultPc = s.faultPc := rfl
@[simp] theorem setSt_faultOp (s : State) (b : Byte) : (s.setSt b).faultOp = s.faultOp := rfl
@[simp] theorem setSt_faultInfo (s : State) (b : Byte) : (s.setSt b).faultInfo = s.faultInfo := rfl
@[simp] theorem setSt_rndCount (s : State) (b : Byte) : (s.setSt b).rndCount = s.rndCount := rfl

/-! ### tick -/

@[simp] theorem tick_v (s : State) : (s.tick).v = s.v := rfl
@[simp] theorem tick_i (s : State) : (s.tick).i = s.i := rfl
@[simp] theorem tick_pc (s : State) : (s.tick).pc = s.pc := rfl
@[simp] theorem tick_sp (s : State) : (s.tick).sp = s.sp := rfl
@[simp] theorem tick_stack (s : State) : (s.tick).stack = s.stack := rfl
@[simp] theorem tick_dt (s : State) : (s.tick).dt = tickDown s.dt := rfl
@[simp] theorem tick_st (s : State) : (s.tick).st = tickDown s.st := rfl
@[simp] theorem tick_mem (s : State) : (s.tick).mem = s.mem := rfl
@[simp] theorem tick_disp (s : State) : (s.tick).disp = s.disp := rfl
@[simp] theorem tick_dirty (s : State) : (s.tick).dirty = s.dirty := rfl
@[simp] theorem tick_key (s : State) : (s.tick).key = s.key := rfl
@[simp] theorem tick_faultCode (s : State) : (s.tick).faultCode = s.faultCode := rfl
@[simp] theorem tick_faultPc (s : State) : (s.tick).faultPc = s.faultPc := rfl
@[simp] theorem tick_faultOp (s : State) : (s.tick).faultOp = s.faultOp := rfl
@[simp] theorem tick_faultInfo (s : State) : (s.tick).faultInfo = s.faultInfo := rfl
@[simp] theorem tick_rndCount (s : State) : (s.tick).rndCount = s.rndCount := rfl

/-! ### setMem -/

@[simp] theorem setMem_v (s : State) (m : Memory) : (s.setMem m).v = s.v := rfl
@[simp] theorem setMem_i (s : State) (m : Memory) : (s.setMem m).i = s.i := rfl
@[simp] theorem setMem_pc (s : State) (m : Memory) : (s.setMem m).pc = s.pc := rfl
@[simp] theorem setMem_sp (s : State) (m : Memory) : (s.setMem m).sp = s.sp := rfl
@[simp] theorem setMem_stack (s : State) (m : Memory) : (s.setMem m).stack = s.stack := rfl
@[simp] theorem setMem_dt (s : State) (m : Memory) : (s.setMem m).dt = s.dt := rfl
@[simp] theorem setMem_st (s : State) (m : Memory) : (s.setMem m).st = s.st := rfl
@[simp] theorem setMem_mem (s : State) (m : Memory) : (s.setMem m).mem = m := rfl
@[simp] theorem setMem_disp (s : State) (m : Memory) : (s.setMem m).disp = s.disp := rfl
@[simp] theorem setMem_dirty (s : State) (m : Memory) : (s.setMem m).dirty = s.dirty := rfl
@[simp] theorem setMem_key (s : State) (m : Memory) : (s.setMem m).key = s.key := rfl
@[simp] theorem setMem_faultCode (s : State) (m : Memory) : (s.setMem m).faultCode = s.faultCode := rfl
@[simp] theorem setMem_faultPc (s : State) (m : Memory) : (s.setMem m).faultPc = s.faultPc := rfl
@[simp] theorem setMem_faultOp (s : State) (m : Memory) : (s.setMem m).faultOp = s.faultOp := rfl
@[simp] theorem setMem_faultInfo (s : State) (m : Memory) : (s.setMem m).faultInfo = s.faultInfo := rfl
@[simp] theorem setMem_rndCount (s : State) (m : Memory) : (s.setMem m).rndCount = s.rndCount := rfl

/-! ### setScreen -/

@[simp] theorem setScreen_v (s : State) (d : Display) : (s.setScreen d).v = s.v := rfl
@[simp] theorem setScreen_i (s : State) (d : Display) : (s.setScreen d).i = s.i := rfl
@[simp] theorem setScreen_pc (s : State) (d : Display) : (s.setScreen d).pc = s.pc := rfl
@[simp] theorem setScreen_sp (s : State) (d : Display) : (s.setScreen d).sp = s.sp := rfl
@[simp] theorem setScreen_stack (s : State) (d : Display) : (s.setScreen d).stack = s.stack := rfl
@[simp] theorem setScreen_dt (s : State) (d : Display) : (s.setScreen d).dt = s.dt := rfl
@[simp] theorem setScreen_st (s : State) (d : Display) : (s.setScreen d).st = s.st := rfl
@[simp] theorem setScreen_mem (s : State) (d : Display) : (s.setScreen d).mem = s.mem := rfl
@[simp] theorem setScreen_disp (s : State) (d : Display) : (s.setScreen d).disp = d := rfl
@[simp] theorem setScreen_dirty (s : State) (d : Display) : (s.setScreen d).dirty = true := rfl
@[simp] theorem setScreen_key (s : State) (d : Display) : (s.setScreen d).key = s.key := rfl
@[simp] theorem setScreen_faultCode (s : State) (d : Display) : (s.setScreen d).faultCode = s.faultCode := rfl
@[simp] theorem setScreen_faultPc (s : State) (d : Display) : (s.setScreen d).faultPc = s.faultPc := rfl
@[simp] theorem setScreen_faultOp (s : State) (d : Display) : (s.setScreen d).faultOp = s.faultOp := rfl
@[simp] theorem setScreen_faultInfo (s : State) (d : Display) : (s.setScreen d).faultInfo = s.faultInfo := rfl
@[simp] theorem setScreen_rndCount (s : State) (d : Display) : (s.setScreen d).rndCount = s.rndCount := rfl

/-! ### countRnd -/

@[simp] theorem countRnd_v (s : State) : (s.countRnd).v = s.v := rfl
@[simp] theorem countRnd_i (s : State) : (s.countRnd).i = s.i := rfl
@[simp] theorem countRnd_pc (s : State) : (s.countRnd).pc = s.pc := rfl
@[simp] theorem countRnd_sp (s : State) : (s.countRnd).sp = s.sp := rfl
@[simp] theorem countRnd_stack (s : State) : (s.countRnd).stack = s.stack := rfl
@[simp] theorem countRnd_dt (s : State) : (s.countRnd).dt = s.dt := rfl
@[simp] theorem countRnd_st (s : State) : (s.countRnd).st = s.st := rfl
@[simp] theorem countRnd_mem (s : State) : (s.countRnd).mem = s.mem := rfl
@[simp] theorem countRnd_disp (s : State) : (s.countRnd).disp = s.disp := rfl
@[simp] theorem countRnd_dirty (s : State) : (s.countRnd).dirty = s.dirty := rfl
@[simp] theorem countRnd_key (s : State) : (s.countRnd).key = s.key := rfl
@[simp] theorem countRnd_faultCode (s : State) : (s.countRnd).faultCode = s.faultCode := rfl
@[simp] theorem countRnd_faultPc (s : State) : (s.countRnd).faultPc = s.faultPc := rfl
@[simp] theorem countRnd_faultOp (s : State) : (s.countRnd).faultOp = s.faultOp := rfl
@[simp] theorem countRnd_faultInfo (s : State) : (s.countRnd).faultInfo = s.faultInfo := rfl
@[simp] theorem countRnd_rndCount (s : State) : (s.countRnd).rndCount = s.rndCount + 1 := rfl

/-! ### takeFault -/

@[simp] theorem takeFault_v (s : State) (c : Cause) (info op : Word) : (s.takeFault c info op).v = s.v := rfl
@[simp] theorem takeFault_i (s : State) (c : Cause) (info op : Word) : (s.takeFault c info op).i = s.i := rfl
@[simp] theorem takeFault_pc (s : State) (c : Cause) (info op : Word) : (s.takeFault c info op).pc = s.pc := rfl
@[simp] theorem takeFault_sp (s : State) (c : Cause) (info op : Word) : (s.takeFault c info op).sp = s.sp := rfl
@[simp] theorem takeFault_stack (s : State) (c : Cause) (info op : Word) : (s.takeFault c info op).stack = s.stack := rfl
@[simp] theorem takeFault_dt (s : State) (c : Cause) (info op : Word) : (s.takeFault c info op).dt = s.dt := rfl
@[simp] theorem takeFault_st (s : State) (c : Cause) (info op : Word) : (s.takeFault c info op).st = s.st := rfl
@[simp] theorem takeFault_mem (s : State) (c : Cause) (info op : Word) : (s.takeFault c info op).mem = s.mem := rfl
@[simp] theorem takeFault_disp (s : State) (c : Cause) (info op : Word) : (s.takeFault c info op).disp = s.disp := rfl
@[simp] theorem takeFault_dirty (s : State) (c : Cause) (info op : Word) : (s.takeFault c info op).dirty = s.dirty := rfl
@[simp] theorem takeFault_key (s : State) (c : Cause) (info op : Word) : (s.takeFault c info op).key = s.key := rfl
@[simp] theorem takeFault_faultCode (s : State) (c : Cause) (info op : Word) : (s.takeFault c info op).faultCode = causeCode c := rfl
@[simp] theorem takeFault_faultPc (s : State) (c : Cause) (info op : Word) : (s.takeFault c info op).faultPc = s.pc := rfl
@[simp] theorem takeFault_faultOp (s : State) (c : Cause) (info op : Word) : (s.takeFault c info op).faultOp = op := rfl
@[simp] theorem takeFault_faultInfo (s : State) (c : Cause) (info op : Word) : (s.takeFault c info op).faultInfo = info := rfl
@[simp] theorem takeFault_rndCount (s : State) (c : Cause) (info op : Word) : (s.takeFault c info op).rndCount = s.rndCount := rfl

/-! ### skipIf and loadRegs -/

@[simp] theorem skipIf_v (s : State) (c : Bool) : (s.skipIf c).v = s.v := by cases c <;> rfl
@[simp] theorem skipIf_i (s : State) (c : Bool) : (s.skipIf c).i = s.i := by cases c <;> rfl
@[simp] theorem skipIf_pc (s : State) (c : Bool) : (s.skipIf c).pc = if c then s.pc + 2 else s.pc := by
  cases c <;> rfl
@[simp] theorem skipIf_sp (s : State) (c : Bool) : (s.skipIf c).sp = s.sp := by cases c <;> rfl
@[simp] theorem skipIf_stack (s : State) (c : Bool) : (s.skipIf c).stack = s.stack := by cases c <;> rfl
@[simp] theorem skipIf_dt (s : State) (c : Bool) : (s.skipIf c).dt = s.dt := by cases c <;> rfl
@[simp] theorem skipIf_st (s : State) (c : Bool) : (s.skipIf c).st = s.st := by cases c <;> rfl
@[simp] theorem skipIf_mem (s : State) (c : Bool) : (s.skipIf c).mem = s.mem := by cases c <;> rfl
@[simp] theorem skipIf_disp (s : State) (c : Bool) : (s.skipIf c).disp = s.disp := by cases c <;> rfl
@[simp] theorem skipIf_dirty (s : State) (c : Bool) : (s.skipIf c).dirty = s.dirty := by cases c <;> rfl
@[simp] theorem skipIf_key (s : State) (c : Bool) : (s.skipIf c).key = s.key := by cases c <;> rfl
@[simp] theorem skipIf_faultCode (s : State) (c : Bool) : (s.skipIf c).faultCode = s.faultCode := by cases c <;> rfl
@[simp] theorem skipIf_faultPc (s : State) (c : Bool) : (s.skipIf c).faultPc = s.faultPc := by cases c <;> rfl
@[simp] theorem skipIf_faultOp (s : State) (c : Bool) : (s.skipIf c).faultOp = s.faultOp := by cases c <;> rfl
@[simp] theorem skipIf_faultInfo (s : State) (c : Bool) : (s.skipIf c).faultInfo = s.faultInfo := by cases c <;> rfl
@[simp] theorem skipIf_rndCount (s : State) (c : Bool) : (s.skipIf c).rndCount = s.rndCount := by cases c <;> rfl
@[simp] theorem loadRegs_i (s : State) (x : Reg) : (s.loadRegs x).i = s.i := rfl
@[simp] theorem loadRegs_pc (s : State) (x : Reg) : (s.loadRegs x).pc = s.pc := rfl
@[simp] theorem loadRegs_sp (s : State) (x : Reg) : (s.loadRegs x).sp = s.sp := rfl
@[simp] theorem loadRegs_stack (s : State) (x : Reg) : (s.loadRegs x).stack = s.stack := rfl
@[simp] theorem loadRegs_dt (s : State) (x : Reg) : (s.loadRegs x).dt = s.dt := rfl
@[simp] theorem loadRegs_st (s : State) (x : Reg) : (s.loadRegs x).st = s.st := rfl
@[simp] theorem loadRegs_mem (s : State) (x : Reg) : (s.loadRegs x).mem = s.mem := rfl
@[simp] theorem loadRegs_disp (s : State) (x : Reg) : (s.loadRegs x).disp = s.disp := rfl
@[simp] theorem loadRegs_dirty (s : State) (x : Reg) : (s.loadRegs x).dirty = s.dirty := rfl
@[simp] theorem loadRegs_key (s : State) (x : Reg) : (s.loadRegs x).key = s.key := rfl
@[simp] theorem loadRegs_faultCode (s : State) (x : Reg) : (s.loadRegs x).faultCode = s.faultCode := rfl
@[simp] theorem loadRegs_faultPc (s : State) (x : Reg) : (s.loadRegs x).faultPc = s.faultPc := rfl
@[simp] theorem loadRegs_faultOp (s : State) (x : Reg) : (s.loadRegs x).faultOp = s.faultOp := rfl
@[simp] theorem loadRegs_faultInfo (s : State) (x : Reg) : (s.loadRegs x).faultInfo = s.faultInfo := rfl
@[simp] theorem loadRegs_rndCount (s : State) (x : Reg) : (s.loadRegs x).rndCount = s.rndCount := rfl

/-! ### Registers through the updates -/

theorem reg_setReg (s : State) (x k : Reg) (b : Byte) : (s.setReg x b).reg k = if k = x then b else s.reg k := by
  simp only [State.reg, setReg_v, Vector.getElem_set, Fin.ext_iff, eq_comm]

@[simp] theorem reg_setReg_self (s : State) (x : Reg) (b : Byte) : (s.setReg x b).reg x = b := by
  simp [reg_setReg]

theorem reg_setReg_of_ne (s : State) (x k : Reg) (b : Byte) (h : k ≠ x) : (s.setReg x b).reg k = s.reg k := by
  simp [reg_setReg, h]

/-- FX65 writes only V. -/
theorem loadRegs_frame (s : State) (x : Reg) (w : Vector Byte 16) : { s.loadRegs x with v := w } = { s with v := w } := by
  simp only [loadRegs_i, loadRegs_pc, loadRegs_sp, loadRegs_stack, loadRegs_dt, loadRegs_st, loadRegs_mem, loadRegs_disp,
    loadRegs_dirty, loadRegs_key, loadRegs_faultCode, loadRegs_faultPc, loadRegs_faultOp, loadRegs_faultInfo,
    loadRegs_rndCount]

theorem reg_loadRegs (s : State) (x k : Reg) :
    (s.loadRegs x).reg k = if k.val ≤ x.val then s.mem.read (s.dataAddr k.val) else s.reg k := by
  simp [State.reg, State.loadRegs]

@[simp] theorem reg_setI (s : State) (a : Word) (k : Reg) : (s.setI a).reg k = s.reg k := rfl
@[simp] theorem reg_setPc (s : State) (a : Word) (k : Reg) : (s.setPc a).reg k = s.reg k := rfl
@[simp] theorem reg_advance (s : State) (k : Reg) : (s.advance).reg k = s.reg k := rfl
@[simp] theorem reg_setDt (s : State) (b : Byte) (k : Reg) : (s.setDt b).reg k = s.reg k := rfl
@[simp] theorem reg_setSt (s : State) (b : Byte) (k : Reg) : (s.setSt b).reg k = s.reg k := rfl
@[simp] theorem reg_tick (s : State) (k : Reg) : (s.tick).reg k = s.reg k := rfl
@[simp] theorem reg_setMem (s : State) (m : Memory) (k : Reg) : (s.setMem m).reg k = s.reg k := rfl
@[simp] theorem reg_setScreen (s : State) (d : Display) (k : Reg) : (s.setScreen d).reg k = s.reg k := rfl
@[simp] theorem reg_countRnd (s : State) (k : Reg) : (s.countRnd).reg k = s.reg k := rfl
@[simp] theorem reg_takeFault (s : State) (c : Cause) (info op : Word) (k : Reg) : (s.takeFault c info op).reg k = s.reg k := rfl
@[simp] theorem reg_skipIf (s : State) (c : Bool) (k : Reg) : (s.skipIf c).reg k = s.reg k := by cases c <;> rfl

end Sys2Proof.Machine
end

