-- ==== Sys2Proof/Laws/Ops.lean ====
section
/-! SUPPORT. One lemma for each shared operation, which says once everything it can do. -/

namespace Sys2Proof.Machine

/-! ### Fault entry -/

theorem raise_eq (c : Cause) (info : Word) (i : Instr) (s : State) :
    raise c info i s = .next (s.takeFault c info (encode i)) := rfl

/-- A cause's code is none of NONE and at most 5 (R112). -/
theorem causeCode_range (c : Cause) : causeCode c ≠ 0 ∧ (causeCode c).toNat ≤ 5 := by
  cases c <;> decide

theorem causeCode_injective {c d : Cause} (h : causeCode c = causeCode d) : c = d := by
  cases c <;> cases d <;> first | rfl | exact absurd h (by decide)

theorem halted_iff (s : State) : s.halted = true ↔ s.faultCode ≠ 0 := by
  simp [State.halted]

theorem halted_eq_false_iff (s : State) : s.halted = false ↔ s.faultCode = 0 := by
  simp [State.halted]

/-! ### Call stack -/

/-- A push happens exactly where SP is below 16, and then does what R70 says. -/
theorem pushReturn_eq_some (s t : State) :
    s.pushReturn = some t ↔
      ∃ h : s.sp.toNat < 16, t = { s with stack := s.stack.set s.sp.toNat s.pc, sp := s.sp + 1 } := by
  unfold State.pushReturn
  split_ifs with h
  · exact ⟨fun e => ⟨h, (Option.some.inj e).symm⟩, fun ⟨_, e⟩ => congrArg some e.symm⟩
  · exact ⟨(fun e => by cases e), fun ⟨h', _⟩ => absurd h' h⟩

/-- A pop happens exactly where SP - 1 is below 16, and then does what R69 says. -/
theorem popReturn_eq_some (s t : State) :
    s.popReturn = some t ↔
      ∃ h : (s.sp - 1).toNat < 16, t = { s with sp := s.sp - 1, pc := s.stack[(s.sp - 1).toNat] } := by
  unfold State.popReturn
  split_ifs with h
  · exact ⟨fun e => ⟨h, (Option.some.inj e).symm⟩, fun ⟨_, e⟩ => congrArg some e.symm⟩
  · exact ⟨(fun e => by cases e), fun ⟨h', _⟩ => absurd h' h⟩

/-! ### Operands -/

/-- An access of `n` bytes at I stays inside memory exactly when it touches none or its last byte is at most 0xFFF. -/
theorem outOfRange_eq_false (s : State) (n : Nat) : s.outOfRange n = false ↔ n = 0 ∨ s.i.toNat + n ≤ 4096 := by
  simp only [State.outOfRange, decide_eq_false_iff_not]
  omega

theorem outOfRange_eq_true (s : State) (n : Nat) : s.outOfRange n = true ↔ 0 < n ∧ 4096 < s.i.toNat + n := by
  simp only [State.outOfRange, decide_eq_true_iff]
  omega

theorem keyAt_of_lt (s : State) (k : Byte) (h : k.toNat < 16) : s.keyAt k = some (s.key[k.toNat]) := by
  simp [State.keyAt, h]

theorem keyAt_eq_none (s : State) (k : Byte) : s.keyAt k = none ↔ 15 < k.toNat := by
  unfold State.keyAt
  split_ifs with h
  · simp; omega
  · simp; omega

theorem length_regBlock (s : State) (x : Reg) : (s.regBlock x).length = x.val + 1 := by
  simp [State.regBlock]

theorem getElem_regBlock (s : State) (x : Reg) (k : Nat) (hk : k < 16) (h : k < (s.regBlock x).length) :
    (s.regBlock x)[k] = s.reg ⟨k, hk⟩ := by
  simp [State.regBlock, State.reg]

theorem length_decimalDigits (b : Byte) : (decimalDigits b).length = 3 := rfl

/-! ### Flag then result -/

/-- 8XY4 to 8XYE, register by register: V[x] holds the result of the operands as they are after VF took the flag, VF the
flag unless x is 15, and every other register is as before. -/
theorem reg_flagThenResult (s : State) (x y k : Reg) (flag result : Byte → Byte → Byte) :
    (s.flagThenResult x y flag result).reg k =
      if k = x then
        result (if x = 15 then flag (s.reg x) (s.reg y) else s.reg x)
          (if y = 15 then flag (s.reg x) (s.reg y) else s.reg y)
      else if k = 15 then flag (s.reg x) (s.reg y) else s.reg k := by
  simp only [State.flagThenResult, reg_setReg, vf]

/-- 8XY4 to 8XYE write only V. -/
theorem flagThenResult_frame (s : State) (x y : Reg) (flag result : Byte → Byte → Byte) :
    { s.flagThenResult x y flag result with v := s.v } = s := rfl

/-! ### Fetch and the end of a step -/

theorem canFetch_iff (s : State) : s.canFetch = true ↔ s.pc.toNat + 1 ≤ 0xFFF := by
  simp [State.canFetch]

theorem fetchWord_toNat (s : State) : s.fetchWord.toNat = s.opcodeAtPc := by
  rw [State.fetchWord, wordOfBytes_toNat, State.opcodeAtPc]

/-- The end of a step answers a next state exactly when the instruction does: the same state after a fault, else the
state with the timers ticked. -/
theorem finishStep_eq_next (r : Result) (t : State) :
    finishStep r = .next t ↔
      ∃ u, r = .next u ∧ t = if u.faultCode = 0 then u.tick else u := by
  cases r with
  | next u =>
    have h : (finishStep (.next u) : Result) = .next (if u.faultCode = 0 then u.tick else u) := by
      by_cases hu : u.faultCode = 0
      · simp only [finishStep, (halted_eq_false_iff u).2 hu, if_pos hu, Bool.false_eq_true, if_false]
      · simp only [finishStep, (halted_iff u).2 hu, if_neg hu, if_true]
    rw [h]
    exact ⟨fun e => ⟨u, rfl, (Host.Outcome.next.inj e).symm⟩,
      fun ⟨_, e, e'⟩ => by rw [e', Host.Outcome.next.inj e]⟩
  | fault f => exact ⟨(fun e => by cases e), fun ⟨_, e, _⟩ => by cases e⟩
  | refused f => exact ⟨(fun e => by cases e), fun ⟨_, e, _⟩ => by cases e⟩

/-- A step of a halted core (R67). -/
theorem step_of_halted (s : State) (h : s.faultCode ≠ 0) : step s = .next s := by
  rw [step, if_pos ((halted_iff s).2 h)]

/-- A step whose fetch would leave memory (R38). -/
theorem step_of_not_canFetch (s : State) (h : s.faultCode = 0) (hf : ¬ s.pc.toNat + 1 ≤ 0xFFF) :
    step s = .next (s.takeFault .fetchRange s.pc 0) := by
  rw [step, if_neg (by rw [halted_iff]; exact not_not_intro h), if_neg (by rw [canFetch_iff]; exact hf)]

/-- Every other step. -/
theorem step_of_ready (s : State) (h : s.ready) : step s = finishStep (exec (decode s.fetchWord) s) := by
  rw [step, if_neg (by rw [halted_iff]; exact not_not_intro h.1), if_pos ((canFetch_iff s).2 h.2)]

/-- Everything a step can do when it answers a next state (R59): nothing in a halted core, FETCH_RANGE, or the decoded
instruction and the end of the step. -/
theorem step_eq_next (s t : State) :
    step s = .next t ↔
      (s.faultCode ≠ 0 ∧ t = s) ∨
      (s.faultCode = 0 ∧ 0xFFF < s.pc.toNat + 1 ∧ t = s.takeFault .fetchRange s.pc 0) ∨
      (s.ready ∧ ∃ u, exec (decode s.fetchWord) s = .next u ∧ t = if u.faultCode = 0 then u.tick else u) := by
  by_cases h : s.faultCode = 0
  · by_cases hf : s.pc.toNat + 1 ≤ 0xFFF
    · rw [step_of_ready s ⟨h, hf⟩, finishStep_eq_next]
      constructor
      · exact fun e => .inr (.inr ⟨⟨h, hf⟩, e⟩)
      · rintro (⟨h', -⟩ | ⟨-, h', -⟩ | ⟨-, e⟩)
        · exact absurd h h'
        · omega
        · exact e
    · rw [step_of_not_canFetch s h hf]
      constructor
      · exact fun e => .inr (.inl ⟨h, by omega, (Host.Outcome.next.inj e).symm⟩)
      · rintro (⟨h', -⟩ | ⟨-, -, e⟩ | ⟨h', -⟩)
        · exact absurd h h'
        · rw [e]
        · exact absurd h'.2 hf
  · rw [step_of_halted s h]
    constructor
    · exact fun e => .inl ⟨h, (Host.Outcome.next.inj e).symm⟩
    · rintro (⟨-, e⟩ | ⟨h', -⟩ | ⟨h', -⟩)
      · rw [e]
      · exact absurd h' h
      · exact absurd h'.1 h

end Sys2Proof.Machine
end

