-- ==== Sys2Proof/Laws/Exec.lean ====
section
/-! SUPPORT. The meanings that can fault, inverted: each lemma says once everything the meaning can do when it answers a
next state, and one lemma says what any instruction does to the fault latch. -/

namespace Sys2Proof.Machine

/-- A meaning of the shape "fault if `c`, else go on to `u`". -/
theorem ite_raise_eq_next {b : Bool} {c : Cause} {info : Word} {i : Instr} {s t u : State} :
    (if b then raise c info i s else .next u) = (.next t : Result) ↔
      (b = true ∧ t = s.takeFault c info (encode i)) ∨ (b = false ∧ t = u) := by
  cases b
  · exact ⟨fun h => .inr ⟨rfl, (Host.Outcome.next.inj h).symm⟩, by rintro (⟨h, -⟩ | ⟨-, rfl⟩) <;> first | cases h | rfl⟩
  · exact ⟨fun h => .inl ⟨rfl, (Host.Outcome.next.inj h).symm⟩, by rintro (⟨-, rfl⟩ | ⟨h, -⟩) <;> first | rfl | cases h⟩

theorem exec_ret_next (x : Nibble) (s t : State) :
    exec (.ret x) s = .next t ↔
      (s.sp = 0 ∧ t = s.takeFault .stackUnderflow 0 (encode (.ret x))) ∨
      (s.sp ≠ 0 ∧ s.advance.popReturn = some t) := by
  simp only [exec, execRet]
  by_cases h : s.sp = 0
  · simp only [h, if_true, raise_eq, Host.Outcome.next.injEq, true_and, ne_eq, not_true_eq_false, false_and, or_false]
    exact eq_comm
  · simp only [h, if_false, false_and, ne_eq, not_false_eq_true, true_and, false_or]
    cases s.advance.popReturn with
    | none => simp
    | some u => simp

theorem exec_call_next (nnn : Addr12) (s t : State) :
    exec (.call nnn) s = .next t ↔
      (s.sp = 16 ∧ t = s.takeFault .stackOverflow 16 (encode (.call nnn))) ∨
      (s.sp ≠ 16 ∧ ∃ u, s.advance.pushReturn = some u ∧ t = u.setPc (zext16 nnn)) := by
  simp only [exec, execCall]
  by_cases h : s.sp = 16
  · simp only [h, if_true, raise_eq, Host.Outcome.next.injEq, true_and, ne_eq, not_true_eq_false, false_and, or_false]
    exact eq_comm
  · simp only [h, if_false, false_and, ne_eq, not_false_eq_true, true_and, false_or]
    cases s.advance.pushReturn with
    | none => simp
    | some u => simp [eq_comm]

theorem exec_drw_next (x y : Reg) (n : Nibble) (s t : State) :
    exec (.drw x y n) s = .next t ↔
      (s.outOfRange n.toNat = true ∧ t = s.takeFault .memRange s.i (encode (.drw x y n))) ∨
      (s.outOfRange n.toNat = false ∧
        t = (s.advance.setScreen (s.drawn x y n.toNat).1).setReg vf (flagByte (s.drawn x y n.toNat).2)) :=
  ite_raise_eq_next

theorem exec_ldB_next (x : Reg) (s t : State) :
    exec (.ldB x) s = .next t ↔
      (s.outOfRange 3 = true ∧ t = s.takeFault .memRange s.i (encode (.ldB x))) ∨
      (s.outOfRange 3 = false ∧
        t = s.advance.setMem (s.mem.writeBytes (s.dataAddr 0) (decimalDigits (s.reg x)))) :=
  ite_raise_eq_next

theorem exec_ldMemV_next (x : Reg) (s t : State) :
    exec (.ldMemV x) s = .next t ↔
      (s.outOfRange (x.val + 1) = true ∧ t = s.takeFault .memRange s.i (encode (.ldMemV x))) ∨
      (s.outOfRange (x.val + 1) = false ∧ t = s.advance.setMem (s.mem.writeBytes (s.dataAddr 0) (s.regBlock x))) :=
  ite_raise_eq_next

theorem exec_ldVMem_next (x : Reg) (s t : State) :
    exec (.ldVMem x) s = .next t ↔
      (s.outOfRange (x.val + 1) = true ∧ t = s.takeFault .memRange s.i (encode (.ldVMem x))) ∨
      (s.outOfRange (x.val + 1) = false ∧ t = s.advance.loadRegs x) :=
  ite_raise_eq_next

/-- A meaning that reads the keypad: the key that V[x] selects, or KEY_RANGE. -/
theorem key_match_eq_next {f : Bool → State} {i : Instr} {info : Word} {s t : State} {k : Byte} :
    (match s.keyAt k with
      | some down => .next (f down)
      | none => raise .keyRange info i s) = (.next t : Result) ↔
      (15 < k.toNat ∧ t = s.takeFault .keyRange info (encode i)) ∨
      ∃ h : k.toNat < 16, t = f s.key[k.toNat] := by
  by_cases h : k.toNat < 16
  · rw [keyAt_of_lt s k h]
    constructor
    · exact fun e => .inr ⟨h, (Host.Outcome.next.inj e).symm⟩
    · rintro (⟨h', -⟩ | ⟨-, rfl⟩)
      · omega
      · rfl
  · rw [(keyAt_eq_none s k).2 (by omega)]
    constructor
    · exact fun e => .inl ⟨by omega, (Host.Outcome.next.inj e).symm⟩
    · rintro (⟨-, rfl⟩ | ⟨h', -⟩)
      · rfl
      · exact absurd h' h

theorem exec_skp_next (x : Reg) (s t : State) :
    exec (.skp x) s = .next t ↔
      (15 < (s.reg x).toNat ∧ t = s.takeFault .keyRange (byteToWord (s.reg x)) (encode (.skp x))) ∨
      ∃ h : (s.reg x).toNat < 16, t = s.advance.skipIf s.key[(s.reg x).toNat] :=
  key_match_eq_next

theorem exec_sknp_next (x : Reg) (s t : State) :
    exec (.sknp x) s = .next t ↔
      (15 < (s.reg x).toNat ∧ t = s.takeFault .keyRange (byteToWord (s.reg x)) (encode (.sknp x))) ∨
      ∃ h : (s.reg x).toNat < 16, t = s.advance.skipIf (!s.key[(s.reg x).toNat]) :=
  key_match_eq_next

theorem exec_ldVK_next (x : Reg) (s t : State) :
    exec (.ldVK x) s = .next t ↔
      (15 < (s.reg x).toNat ∧ t = s.takeFault .keyRange (byteToWord (s.reg x)) (encode (.ldVK x))) ∨
      ∃ h : (s.reg x).toNat < 16, t = s.advance.setReg x (flagByte s.key[(s.reg x).toNat]) :=
  key_match_eq_next

/-- The state has the same fault latch. -/
def SameLatch (s t : State) : Prop :=
  t.faultCode = s.faultCode ∧ t.faultPc = s.faultPc ∧ t.faultOp = s.faultOp ∧ t.faultInfo = s.faultInfo

theorem sameLatch_skip (s : State) (c : Bool) : SameLatch s (s.advance.skipIf c) := by
  cases c <;> exact ⟨rfl, rfl, rfl, rfl⟩

/-- Any instruction that answers a next state enters a fault of its own, on the state as it was, or leaves the latch
alone (R64, R114). -/
theorem exec_next_latch (i : Instr) (s t : State) (h : exec i s = .next t) :
    (∃ c info, t = s.takeFault c info (encode i)) ∨ SameLatch s t := by
  cases i with
  | ret x =>
    obtain ⟨-, h⟩ | ⟨-, h⟩ := (exec_ret_next x s t).1 h
    · exact .inl ⟨_, _, h⟩
    · obtain ⟨-, rfl⟩ := (popReturn_eq_some _ _).1 h
      exact .inr ⟨rfl, rfl, rfl, rfl⟩
  | call nnn =>
    obtain ⟨-, h⟩ | ⟨-, u, hu, rfl⟩ := (exec_call_next nnn s t).1 h
    · exact .inl ⟨_, _, h⟩
    · obtain ⟨-, rfl⟩ := (pushReturn_eq_some _ _).1 hu
      exact .inr ⟨rfl, rfl, rfl, rfl⟩
  | drw x y n =>
    obtain ⟨-, h⟩ | ⟨-, rfl⟩ := (exec_drw_next x y n s t).1 h
    · exact .inl ⟨_, _, h⟩
    · exact .inr ⟨rfl, rfl, rfl, rfl⟩
  | ldB x =>
    obtain ⟨-, h⟩ | ⟨-, rfl⟩ := (exec_ldB_next x s t).1 h
    · exact .inl ⟨_, _, h⟩
    · exact .inr ⟨rfl, rfl, rfl, rfl⟩
  | ldMemV x =>
    obtain ⟨-, h⟩ | ⟨-, rfl⟩ := (exec_ldMemV_next x s t).1 h
    · exact .inl ⟨_, _, h⟩
    · exact .inr ⟨rfl, rfl, rfl, rfl⟩
  | ldVMem x =>
    obtain ⟨-, h⟩ | ⟨-, rfl⟩ := (exec_ldVMem_next x s t).1 h
    · exact .inl ⟨_, _, h⟩
    · exact .inr ⟨loadRegs_faultCode s.advance x, loadRegs_faultPc s.advance x, loadRegs_faultOp s.advance x,
        loadRegs_faultInfo s.advance x⟩
  | skp x =>
    obtain ⟨-, h⟩ | ⟨-, rfl⟩ := (exec_skp_next x s t).1 h
    · exact .inl ⟨_, _, h⟩
    · exact .inr (sameLatch_skip _ _)
  | sknp x =>
    obtain ⟨-, h⟩ | ⟨-, rfl⟩ := (exec_sknp_next x s t).1 h
    · exact .inl ⟨_, _, h⟩
    · exact .inr (sameLatch_skip _ _)
  | ldVK x =>
    obtain ⟨-, h⟩ | ⟨-, rfl⟩ := (exec_ldVK_next x s t).1 h
    · exact .inl ⟨_, _, h⟩
    · exact .inr ⟨rfl, rfl, rfl, rfl⟩
  | seImm | sneImm | seReg | sneReg =>
    obtain rfl := Host.Outcome.next.inj h
    exact .inr (sameLatch_skip _ _)
  | cls | jp | ldImm | addImm | ldReg | orReg | andReg | xorReg | addReg | sub | shr | subn | shl | ldI | jpV0 | rnd
  | ldVDt | ldDtV | ldStV | addI | ldF | sys | nop8 | nopE | nopF =>
    obtain rfl := Host.Outcome.next.inj h
    exact .inr ⟨rfl, rfl, rfl, rfl⟩

end Sys2Proof.Machine
end

