-- ==== Sys2Proof/Laws/Memory.lean ====
section
/-! SUPPORT. The laws of the memory primitives: a read after a write, the canonical form kept, and the same for a
sequence of writes. -/

namespace Sys2Proof.Machine

@[simp] theorem read_nil (a : Nat) : Memory.read [] a = Memory.unlisted a := rfl

@[simp] theorem read_cons (b a : Nat) (v : Byte) (m : Memory) :
    Memory.read ((b, v) :: m) a = if a = b then v else Memory.read m a := rfl

/-! ### The canonical form -/

@[simp] theorem wfFrom_nil (lo : Nat) : Memory.wfFrom lo [] = true := rfl

theorem wfFrom_cons (lo a : Nat) (v : Byte) (m : Memory) :
    Memory.wfFrom lo ((a, v) :: m) = true ↔
      lo ≤ a ∧ a < Config.memSize ∧ v ≠ Memory.unlisted a ∧ Memory.wfFrom (a + 1) m = true := by
  simp [Memory.wfFrom, and_assoc]

theorem wfFrom_mono {lo lo' : Nat} (h : lo ≤ lo') (m : Memory) (hm : Memory.wfFrom lo' m = true) :
    Memory.wfFrom lo m = true := by
  cases m with
  | nil => rfl
  | cons c m =>
    obtain ⟨a, v⟩ := c
    rw [wfFrom_cons] at hm ⊢
    exact ⟨h.trans hm.1, hm.2⟩

/-- An address below every entry reads as unlisted. -/
theorem read_of_lt_wfFrom {lo a : Nat} (m : Memory) (hm : Memory.wfFrom lo m = true) (h : a < lo) :
    Memory.read m a = Memory.unlisted a := by
  induction m generalizing lo with
  | nil => rfl
  | cons c m ih =>
    obtain ⟨b, v⟩ := c
    rw [wfFrom_cons] at hm
    rw [read_cons, if_neg (by omega)]
    exact ih hm.2.2.2 (by omega)

theorem read_put (m : Memory) {lo : Nat} (hm : Memory.wfFrom lo m = true) (a b : Nat) (v : Byte) :
    Memory.read (m.put a v) b = if b = a then v else Memory.read m b := by
  induction m generalizing lo with
  | nil =>
    unfold Memory.put
    split_ifs <;> simp_all
  | cons c m ih =>
    obtain ⟨d, w⟩ := c
    rw [wfFrom_cons] at hm
    have hlow : ∀ e, e < d + 1 → Memory.read m e = Memory.unlisted e := fun e he =>
      read_of_lt_wfFrom m hm.2.2.2 he
    have ih' := ih hm.2.2.2
    unfold Memory.put
    by_cases h1 : a < d
    · rw [if_pos h1]
      by_cases hv : v = Memory.unlisted a
      · rw [if_pos hv]
        by_cases hb : b = a
        · subst hb
          rw [read_cons, if_neg (by omega), hlow b (by omega), if_pos rfl, hv]
        · rw [if_neg hb]
      · rw [if_neg hv, read_cons]
    · rw [if_neg h1]
      by_cases h2 : a = d
      · subst h2
        rw [if_pos rfl]
        by_cases hv : v = Memory.unlisted a
        · rw [if_pos hv, read_cons]
          by_cases hb : b = a
          · subst hb
            rw [hlow b (by omega), if_pos rfl, hv]
          · rw [if_neg hb, if_neg hb]
        · rw [if_neg hv, read_cons, read_cons]
          split_ifs <;> rfl
      · rw [if_neg h2, read_cons, read_cons, ih']
        by_cases hb : b = d
        · subst hb
          rw [if_pos rfl, if_neg (Ne.symm h2), if_pos rfl]
        · rw [if_neg hb, if_neg hb]

theorem wfFrom_put (m : Memory) (lo a : Nat) (v : Byte) (hm : Memory.wfFrom lo m = true) (hlo : lo ≤ a)
    (ha : a < Config.memSize) : Memory.wfFrom lo (m.put a v) = true := by
  induction m generalizing lo with
  | nil =>
    unfold Memory.put
    split_ifs with h
    · rfl
    · exact (wfFrom_cons ..).2 ⟨hlo, ha, h, rfl⟩
  | cons c m ih =>
    obtain ⟨d, w⟩ := c
    have hc := hm
    rw [wfFrom_cons] at hc
    unfold Memory.put
    by_cases h1 : a < d
    · rw [if_pos h1]
      split_ifs with hv
      · exact hm
      · exact (wfFrom_cons ..).2 ⟨hlo, ha, hv, (wfFrom_cons ..).2 ⟨by omega, hc.2⟩⟩
    · rw [if_neg h1]
      by_cases h2 : a = d
      · subst h2
        rw [if_pos rfl]
        split_ifs with hv
        · exact wfFrom_mono (by omega) m hc.2.2.2
        · exact (wfFrom_cons ..).2 ⟨hlo, ha, hv, hc.2.2.2⟩
      · rw [if_neg h2]
        exact (wfFrom_cons ..).2 ⟨hc.1, hc.2.1, hc.2.2.1, ih (d + 1) hc.2.2.2 (by omega)⟩

/-! ### One write -/

/-- A read after a write: the byte written at its address, every other address as before. -/
theorem read_write (m : Memory) (hm : m.wf = true) (a b : Nat) (v : Byte) (ha : a < Config.memSize) :
    (m.write a v).read b = if b = a then v else m.read b := by
  rw [Memory.write, if_pos ha]
  exact read_put m hm a b v

/-- A write keeps the canonical form. -/
theorem wf_write (m : Memory) (hm : m.wf = true) (a : Nat) (v : Byte) : (m.write a v).wf = true := by
  unfold Memory.write
  split_ifs with ha
  · exact wfFrom_put m 0 a v hm (Nat.zero_le a) ha
  · exact hm

/-! ### A sequence of writes -/

@[simp] theorem writeBytes_nil (m : Memory) (a : Nat) : m.writeBytes a [] = m := rfl

@[simp] theorem writeBytes_cons (m : Memory) (a : Nat) (b : Byte) (bs : List Byte) :
    m.writeBytes a (b :: bs) = (m.write a b).writeBytes (a + 1) bs := rfl

theorem wf_writeBytes (bs : List Byte) (m : Memory) (hm : m.wf = true) (a : Nat) : (m.writeBytes a bs).wf = true := by
  induction bs generalizing m a with
  | nil => exact hm
  | cons b bs ih => exact ih _ (wf_write m hm a b) _

/-- A read after a sequence of writes inside memory. -/
theorem read_writeBytes (bs : List Byte) (m : Memory) (hm : m.wf = true) (a b : Nat)
    (h : a + bs.length ≤ Config.memSize) :
    (m.writeBytes a bs).read b =
      if hb : a ≤ b ∧ b < a + bs.length then bs[b - a]'(by omega) else m.read b := by
  induction bs generalizing m a with
  | nil => rw [dif_neg (by simp only [List.length_nil]; omega)]; rfl
  | cons c bs ih =>
    simp only [List.length_cons] at h
    rw [writeBytes_cons, ih _ (wf_write m hm a c) (a + 1) (by omega), read_write m hm a b c (by omega)]
    by_cases h1 : b = a
    · subst h1
      rw [dif_neg (by omega), if_pos rfl, dif_pos (by simp)]
      simp
    · by_cases h2 : a + 1 ≤ b ∧ b < a + 1 + bs.length
      · rw [dif_pos h2, dif_pos (by simp; omega)]
        have : b - a = b - (a + 1) + 1 := by omega
        simp [this]
      · rw [dif_neg h2, if_neg h1, dif_neg (by simp; omega)]

/-- The memory right after RESET is in canonical form. -/
theorem reset_mem_wf : State.reset.mem.wf = true := rfl

end Sys2Proof.Machine
end

