-- ==== Sys2Proof/Laws/PerInstr.lean ====
section
/-! SUPPORT. The family TableMatch: the word of every well-formed instruction matches its row of the opcode table
(spec/30_encoding.md R49, spec/opcode_table.json), one lemma per constructor. -/

namespace Sys2Proof.Laws.TableMatch

/-- The instruction's word has the fixed bits of the instruction's row. -/
def Statement (i : Instr) : Prop := i.wf = true → (rowOf i).matchesWord (encode i) = true

theorem class_match (i : Instr) (h : (rowOf i).mask = 0xF000#16)
    (hc : (fieldC (encode i)).setWidth 16 <<< 12 = (rowOf i).pattern) : Statement i := by
  intro _
  rw [Row.matchesWord, h, and_class_mask, hc, beq_self_eq_true]

theorem class_nn_match (i : Instr) (h : (rowOf i).mask = 0xF0FF#16)
    (hc : (fieldC (encode i)).setWidth 16 <<< 12 ||| (fieldNN (encode i)).setWidth 16 = (rowOf i).pattern) :
    Statement i := by
  intro _
  rw [Row.matchesWord, h, and_class_nn_mask, hc, beq_self_eq_true]

theorem class_n_match (i : Instr) (h : (rowOf i).mask = 0xF00F#16)
    (hc : (fieldC (encode i)).setWidth 16 <<< 12 ||| (fieldN (encode i)).setWidth 16 = (rowOf i).pattern) :
    Statement i := by
  intro _
  rw [Row.matchesWord, h, and_class_n_mask, hc, beq_self_eq_true]

theorem cls (x : Nibble) : Statement (.cls x) :=
  class_nn_match (.cls x) rfl (by rw [encode, fieldC_packXNN _ (by decide) x.isLt, fieldNN_packXNN _ (by decide) x.isLt]; rfl)

theorem ret (x : Nibble) : Statement (.ret x) :=
  class_nn_match (.ret x) rfl (by rw [encode, fieldC_packXNN _ (by decide) x.isLt, fieldNN_packXNN _ (by decide) x.isLt]; rfl)

theorem jp (nnn : Addr12) : Statement (.jp nnn) :=
  class_match (.jp nnn) rfl (by rw [encode, fieldC_packNNN nnn (by decide)]; rfl)

theorem call (nnn : Addr12) : Statement (.call nnn) :=
  class_match (.call nnn) rfl (by rw [encode, fieldC_packNNN nnn (by decide)]; rfl)

theorem seImm (x : Reg) (nn : Byte) : Statement (.seImm x nn) :=
  class_match (.seImm x nn) rfl (by rw [encode, fieldC_packXNN nn (by decide) x.isLt]; rfl)

theorem sneImm (x : Reg) (nn : Byte) : Statement (.sneImm x nn) :=
  class_match (.sneImm x nn) rfl (by rw [encode, fieldC_packXNN nn (by decide) x.isLt]; rfl)

theorem seReg (x y : Reg) (n : Nibble) : Statement (.seReg x y n) :=
  class_match (.seReg x y n) rfl (by rw [encode, fieldC_packXYN (by decide) x.isLt y.isLt n.isLt]; rfl)

theorem ldImm (x : Reg) (nn : Byte) : Statement (.ldImm x nn) :=
  class_match (.ldImm x nn) rfl (by rw [encode, fieldC_packXNN nn (by decide) x.isLt]; rfl)

theorem addImm (x : Reg) (nn : Byte) : Statement (.addImm x nn) :=
  class_match (.addImm x nn) rfl (by rw [encode, fieldC_packXNN nn (by decide) x.isLt]; rfl)

theorem ldReg (x y : Reg) : Statement (.ldReg x y) :=
  class_n_match (.ldReg x y) rfl (by
    rw [encode, fieldC_packXYN (by decide) x.isLt y.isLt (by decide), fieldN_packXYN (by decide) x.isLt y.isLt (by decide)]
    rfl)

theorem orReg (x y : Reg) : Statement (.orReg x y) :=
  class_n_match (.orReg x y) rfl (by
    rw [encode, fieldC_packXYN (by decide) x.isLt y.isLt (by decide), fieldN_packXYN (by decide) x.isLt y.isLt (by decide)]
    rfl)

theorem andReg (x y : Reg) : Statement (.andReg x y) :=
  class_n_match (.andReg x y) rfl (by
    rw [encode, fieldC_packXYN (by decide) x.isLt y.isLt (by decide), fieldN_packXYN (by decide) x.isLt y.isLt (by decide)]
    rfl)

theorem xorReg (x y : Reg) : Statement (.xorReg x y) :=
  class_n_match (.xorReg x y) rfl (by
    rw [encode, fieldC_packXYN (by decide) x.isLt y.isLt (by decide), fieldN_packXYN (by decide) x.isLt y.isLt (by decide)]
    rfl)

theorem addReg (x y : Reg) : Statement (.addReg x y) :=
  class_n_match (.addReg x y) rfl (by
    rw [encode, fieldC_packXYN (by decide) x.isLt y.isLt (by decide), fieldN_packXYN (by decide) x.isLt y.isLt (by decide)]
    rfl)

theorem sub (x y : Reg) : Statement (.sub x y) :=
  class_n_match (.sub x y) rfl (by
    rw [encode, fieldC_packXYN (by decide) x.isLt y.isLt (by decide), fieldN_packXYN (by decide) x.isLt y.isLt (by decide)]
    rfl)

theorem shr (x y : Reg) : Statement (.shr x y) :=
  class_n_match (.shr x y) rfl (by
    rw [encode, fieldC_packXYN (by decide) x.isLt y.isLt (by decide), fieldN_packXYN (by decide) x.isLt y.isLt (by decide)]
    rfl)

theorem subn (x y : Reg) : Statement (.subn x y) :=
  class_n_match (.subn x y) rfl (by
    rw [encode, fieldC_packXYN (by decide) x.isLt y.isLt (by decide), fieldN_packXYN (by decide) x.isLt y.isLt (by decide)]
    rfl)

theorem shl (x y : Reg) : Statement (.shl x y) :=
  class_n_match (.shl x y) rfl (by
    rw [encode, fieldC_packXYN (by decide) x.isLt y.isLt (by decide), fieldN_packXYN (by decide) x.isLt y.isLt (by decide)]
    rfl)

theorem sneReg (x y : Reg) (n : Nibble) : Statement (.sneReg x y n) :=
  class_match (.sneReg x y n) rfl (by rw [encode, fieldC_packXYN (by decide) x.isLt y.isLt n.isLt]; rfl)

theorem ldI (nnn : Addr12) : Statement (.ldI nnn) :=
  class_match (.ldI nnn) rfl (by rw [encode, fieldC_packNNN nnn (by decide)]; rfl)

theorem jpV0 (nnn : Addr12) : Statement (.jpV0 nnn) :=
  class_match (.jpV0 nnn) rfl (by rw [encode, fieldC_packNNN nnn (by decide)]; rfl)

theorem rnd (x : Reg) (nn : Byte) : Statement (.rnd x nn) :=
  class_match (.rnd x nn) rfl (by rw [encode, fieldC_packXNN nn (by decide) x.isLt]; rfl)

theorem drw (x y : Reg) (n : Nibble) : Statement (.drw x y n) :=
  class_match (.drw x y n) rfl (by rw [encode, fieldC_packXYN (by decide) x.isLt y.isLt n.isLt]; rfl)

theorem skp (x : Reg) : Statement (.skp x) :=
  class_nn_match (.skp x) rfl (by rw [encode, fieldC_packXNN _ (by decide) x.isLt, fieldNN_packXNN _ (by decide) x.isLt]; rfl)

theorem sknp (x : Reg) : Statement (.sknp x) :=
  class_nn_match (.sknp x) rfl (by rw [encode, fieldC_packXNN _ (by decide) x.isLt, fieldNN_packXNN _ (by decide) x.isLt]; rfl)

theorem ldVDt (x : Reg) : Statement (.ldVDt x) :=
  class_nn_match (.ldVDt x) rfl (by rw [encode, fieldC_packXNN _ (by decide) x.isLt, fieldNN_packXNN _ (by decide) x.isLt]; rfl)

theorem ldVK (x : Reg) : Statement (.ldVK x) :=
  class_nn_match (.ldVK x) rfl (by rw [encode, fieldC_packXNN _ (by decide) x.isLt, fieldNN_packXNN _ (by decide) x.isLt]; rfl)

theorem ldDtV (x : Reg) : Statement (.ldDtV x) :=
  class_nn_match (.ldDtV x) rfl (by rw [encode, fieldC_packXNN _ (by decide) x.isLt, fieldNN_packXNN _ (by decide) x.isLt]; rfl)

theorem ldStV (x : Reg) : Statement (.ldStV x) :=
  class_nn_match (.ldStV x) rfl (by rw [encode, fieldC_packXNN _ (by decide) x.isLt, fieldNN_packXNN _ (by decide) x.isLt]; rfl)

theorem addI (x : Reg) : Statement (.addI x) :=
  class_nn_match (.addI x) rfl (by rw [encode, fieldC_packXNN _ (by decide) x.isLt, fieldNN_packXNN _ (by decide) x.isLt]; rfl)

theorem ldF (x : Reg) : Statement (.ldF x) :=
  class_nn_match (.ldF x) rfl (by rw [encode, fieldC_packXNN _ (by decide) x.isLt, fieldNN_packXNN _ (by decide) x.isLt]; rfl)

theorem ldB (x : Reg) : Statement (.ldB x) :=
  class_nn_match (.ldB x) rfl (by rw [encode, fieldC_packXNN _ (by decide) x.isLt, fieldNN_packXNN _ (by decide) x.isLt]; rfl)

theorem ldMemV (x : Reg) : Statement (.ldMemV x) :=
  class_nn_match (.ldMemV x) rfl (by rw [encode, fieldC_packXNN _ (by decide) x.isLt, fieldNN_packXNN _ (by decide) x.isLt]; rfl)

theorem ldVMem (x : Reg) : Statement (.ldVMem x) :=
  class_nn_match (.ldVMem x) rfl (by rw [encode, fieldC_packXNN _ (by decide) x.isLt, fieldNN_packXNN _ (by decide) x.isLt]; rfl)

theorem sys (nnn : Addr12) : Statement (.sys nnn) :=
  class_match (.sys nnn) rfl (by rw [encode, fieldC_packNNN nnn (by decide)]; rfl)

theorem nop8 (x y n : Nibble) : Statement (.nop8 x y n) :=
  class_match (.nop8 x y n) rfl (by rw [encode, fieldC_packXYN (by decide) x.isLt y.isLt n.isLt]; rfl)

theorem nopE (x : Nibble) (nn : Byte) : Statement (.nopE x nn) :=
  class_match (.nopE x nn) rfl (by rw [encode, fieldC_packXNN nn (by decide) x.isLt]; rfl)

theorem nopF (x : Nibble) (nn : Byte) : Statement (.nopF x nn) :=
  class_match (.nopF x nn) rfl (by rw [encode, fieldC_packXNN nn (by decide) x.isLt]; rfl)

end Sys2Proof.Laws.TableMatch
end

