-- ==== Sys2Proof/Laws/Screen.lean ====
section
/-! SUPPORT. The laws of the frame buffer: one toggle, one sprite pixel, one sprite row, a whole sprite. -/

namespace Sys2Proof.Machine

@[simp] theorem cell_clear (x y : Nat) : Display.clear.cell x y = false := by
  simp only [Display.cell, Display.clear]
  split_ifs <;> simp

theorem cell_toggle (d : Display) {x y : Nat} (hx : x < 64) (hy : y < 32) (px py : Nat) :
    (d.toggle x y).cell px py = (d.cell px py ^^ decide (px = x ∧ py = y)) := by
  unfold Display.toggle
  rw [dif_pos hy]
  unfold Display.cell
  by_cases hp : py < 32
  · rw [dif_pos hp, dif_pos hp]
    by_cases h : py = y
    · subst h
      simp only [Vector.getElem_set_self, BitVec.getLsbD_xor, BitVec.getLsbD_twoPow]
      simp [hx, eq_comm]
    · rw [Vector.getElem_set_ne _ _ (Ne.symm h)]
      simp [h]
  · have : ¬ (px = x ∧ py = y) := fun h => hp (h.2 ▸ hy)
    rw [dif_neg hp, dif_neg hp, decide_eq_false this]
    rfl

/-- Two frame buffers with the same cells are equal. -/
theorem display_ext {d e : Display} (h : ∀ px py, px < 64 → py < 32 → d.cell px py = e.cell px py) : d = e := by
  apply Vector.ext
  intro y hy
  apply BitVec.eq_of_getLsbD_eq
  intro x hx
  have := h x y hx hy
  simpa only [Display.cell, dif_pos hy] using this

/-- One sprite pixel, cell by cell: only the cell at (x, y) inside the frame buffer is toggled. -/
theorem cell_drawPixel (x y : Nat) (a : Display × Bool) (px py : Nat) (hx : px < 64) (hy : py < 32) :
    (drawPixel x y a).1.cell px py = (a.1.cell px py ^^ decide (px = x ∧ py = y)) := by
  unfold drawPixel
  by_cases h : x < Config.dispW ∧ y < Config.dispH
  · rw [if_pos h]
    exact cell_toggle a.1 h.1 h.2 px py
  · have : ¬ (px = x ∧ py = y) := fun e => h (e.1 ▸ e.2 ▸ ⟨hx, hy⟩)
    rw [if_neg h, decide_eq_false this, Bool.xor_false]

/-- One sprite pixel's collision: the cell at (x, y) inside the frame buffer was set. -/
theorem coll_drawPixel (x y : Nat) (a : Display × Bool) :
    (drawPixel x y a).2 = (a.2 || (decide (x < 64 ∧ y < 32) && a.1.cell x y)) := by
  unfold drawPixel
  by_cases h : x < Config.dispW ∧ y < Config.dispH
  · rw [if_pos h, decide_eq_true (by exact h), Bool.true_and]
  · rw [if_neg h, decide_eq_false (by exact h), Bool.false_and, Bool.or_false]

/-- The first `m` columns of one sprite row. -/
def drawColumns (row : Byte) (x0 y m : Nat) (a : Display × Bool) : Display × Bool :=
  (List.range m).foldl (fun a c => if row.getLsbD (7 - c) then drawPixel (x0 + c) y a else a) a

theorem drawColumns_succ (row : Byte) (x0 y m : Nat) (a : Display × Bool) :
    drawColumns row x0 y (m + 1) a =
      if row.getLsbD (7 - m) then drawPixel (x0 + m) y (drawColumns row x0 y m a) else drawColumns row x0 y m a := by
  simp [drawColumns, List.range_succ]

theorem drawRow_eq (row : Byte) (x0 y : Nat) (a : Display × Bool) : drawRow row x0 y a = drawColumns row x0 y 8 a := rfl

/-- Columns of a row, cell by cell. -/
theorem cell_drawColumns (row : Byte) (x0 y m : Nat) (a : Display × Bool) (px py : Nat) (hx : px < 64) (hy : py < 32) :
    (drawColumns row x0 y m a).1.cell px py =
      (a.1.cell px py ^^ decide (∃ c < m, row.getLsbD (7 - c) = true ∧ px = x0 + c ∧ py = y)) := by
  induction m with
  | zero => simp [drawColumns]
  | succ m ih =>
    rw [drawColumns_succ]
    by_cases hb : row.getLsbD (7 - m) = true
    · rw [if_pos hb, cell_drawPixel _ _ _ _ _ hx hy, ih]
      by_cases hp : px = x0 + m ∧ py = y
      · have h1 : ¬ ∃ c < m, row.getLsbD (7 - c) = true ∧ px = x0 + c ∧ py = y := by
          rintro ⟨c, hc, -, h, -⟩
          omega
        have h2 : ∃ c < m + 1, row.getLsbD (7 - c) = true ∧ px = x0 + c ∧ py = y := ⟨m, by omega, hb, hp⟩
        rw [decide_eq_false h1, decide_eq_true h2, decide_eq_true hp, Bool.xor_false]
      · have h : (∃ c < m + 1, row.getLsbD (7 - c) = true ∧ px = x0 + c ∧ py = y) ↔
            ∃ c < m, row.getLsbD (7 - c) = true ∧ px = x0 + c ∧ py = y := by
          constructor
          · rintro ⟨c, hc, h⟩
            have : c ≠ m := by
              rintro rfl
              exact hp h.2
            exact ⟨c, by omega, h⟩
          · rintro ⟨c, hc, h⟩
            exact ⟨c, by omega, h⟩
        rw [decide_eq_false hp, Bool.xor_false, decide_eq_decide.2 h]
    · rw [if_neg hb, ih]
      have h : (∃ c < m + 1, row.getLsbD (7 - c) = true ∧ px = x0 + c ∧ py = y) ↔
          ∃ c < m, row.getLsbD (7 - c) = true ∧ px = x0 + c ∧ py = y := by
        constructor
        · rintro ⟨c, hc, h⟩
          have : c ≠ m := by
            rintro rfl
            exact hb h.1
          exact ⟨c, by omega, h⟩
        · rintro ⟨c, hc, h⟩
          exact ⟨c, by omega, h⟩
      rw [decide_eq_decide.2 h]

/-- Columns of a row: the collision bit looks at the cells as they are before the row. -/
theorem coll_drawColumns (row : Byte) (x0 y m : Nat) (a : Display × Bool) :
    (drawColumns row x0 y m a).2 =
      (a.2 || decide (∃ c < m, row.getLsbD (7 - c) = true ∧ x0 + c < 64 ∧ y < 32 ∧ a.1.cell (x0 + c) y = true)) := by
  induction m with
  | zero => simp [drawColumns]
  | succ m ih =>
    rw [drawColumns_succ, Bool.eq_iff_iff]
    by_cases hb : row.getLsbD (7 - m) = true
    · rw [if_pos hb, coll_drawPixel, ih]
      simp only [Bool.or_eq_true, Bool.and_eq_true, decide_eq_true_eq]
      constructor
      · rintro ((h | ⟨c, hc, h⟩) | ⟨⟨hx, hy⟩, h⟩)
        · exact .inl h
        · exact .inr ⟨c, by omega, h⟩
        · refine .inr ⟨m, by omega, hb, hx, hy, ?_⟩
          rw [cell_drawColumns _ _ _ _ _ _ _ hx hy] at h
          have h1 : ¬ ∃ c < m, row.getLsbD (7 - c) = true ∧ x0 + m = x0 + c ∧ y = y := by
            rintro ⟨c, hc, -, h, -⟩
            omega
          rwa [decide_eq_false h1, Bool.xor_false] at h
      · rintro (h | ⟨c, hc, h⟩)
        · exact .inl (.inl h)
        · by_cases hcm : c = m
          · subst hcm
            refine .inr ⟨⟨h.2.1, h.2.2.1⟩, ?_⟩
            rw [cell_drawColumns _ _ _ _ _ _ _ h.2.1 h.2.2.1]
            have h1 : ¬ ∃ d < c, row.getLsbD (7 - d) = true ∧ x0 + c = x0 + d ∧ y = y := by
              rintro ⟨d, hd, -, h, -⟩
              omega
            rw [decide_eq_false h1, Bool.xor_false]
            exact h.2.2.2
          · exact .inl (.inr ⟨c, by omega, h⟩)
    · rw [if_neg hb, ih]
      simp only [Bool.or_eq_true, decide_eq_true_eq]
      constructor
      · rintro (h | ⟨c, hc, h⟩)
        · exact .inl h
        · exact .inr ⟨c, by omega, h⟩
      · rintro (h | ⟨c, hc, h⟩)
        · exact .inl h
        · have : c ≠ m := by
            rintro rfl
            exact hb h.1
          exact .inr ⟨c, by omega, h⟩

theorem drawSprite_succ (rows : Nat → Byte) (n x0 y0 : Nat) (a : Display × Bool) :
    drawSprite rows (n + 1) x0 y0 a = drawRow (rows n) x0 (y0 + n) (drawSprite rows n x0 y0 a) := by
  simp [drawSprite, List.range_succ]

/-- A sprite with set bits over the cell at (px, py): row r, column c. -/
def spriteOver (rows : Nat → Byte) (n x0 y0 px py : Nat) : Prop :=
  ∃ r < n, ∃ c < 8, (rows r).getLsbD (7 - c) = true ∧ px = x0 + c ∧ py = y0 + r

/-- A whole sprite, cell by cell: a cell inside the frame buffer is toggled exactly when the sprite has a set bit over
it. -/
theorem cell_drawSprite (rows : Nat → Byte) (n x0 y0 : Nat) (a : Display × Bool) (px py : Nat) (hx : px < 64)
    (hy : py < 32) :
    ((drawSprite rows n x0 y0 a).1.cell px py = true ↔
      ¬ (a.1.cell px py = true ↔ spriteOver rows n x0 y0 px py)) := by
  induction n with
  | zero => simp [drawSprite, spriteOver]
  | succ n ih =>
    have hs : spriteOver rows (n + 1) x0 y0 px py ↔
        spriteOver rows n x0 y0 px py ∨ ∃ c < 8, (rows n).getLsbD (7 - c) = true ∧ px = x0 + c ∧ py = y0 + n := by
      constructor
      · rintro ⟨r, hr, h⟩
        by_cases hrn : r = n
        · exact .inr (hrn ▸ h)
        · exact .inl ⟨r, by omega, h⟩
      · rintro (⟨r, hr, h⟩ | h)
        · exact ⟨r, by omega, h⟩
        · exact ⟨n, by omega, h⟩
    have hdisj : spriteOver rows n x0 y0 px py →
        ¬ ∃ c < 8, (rows n).getLsbD (7 - c) = true ∧ px = x0 + c ∧ py = y0 + n := by
      rintro ⟨r, hr, c, -, -, -, h⟩ ⟨d, -, -, -, h'⟩
      omega
    rw [drawSprite_succ, drawRow_eq, cell_drawColumns _ _ _ _ _ _ _ hx hy, hs]
    have hx' : ∀ b c : Bool, ((b ^^ c) = true ↔ ¬ (b = true ↔ c = true)) := by decide
    rw [hx', decide_eq_true_eq, ih]
    by_cases h1 : spriteOver rows n x0 y0 px py
    · have h2 := hdisj h1
      simp only [h1, h2, iff_true, iff_false, true_or, not_not]
    · simp only [h1, iff_false, not_not, false_or]

/-- A whole sprite: the collision bit is set exactly when some cell inside the frame buffer under a set bit was set
before the draw. -/
theorem coll_drawSprite (rows : Nat → Byte) (n x0 y0 : Nat) (a : Display × Bool) :
    ((drawSprite rows n x0 y0 a).2 = true ↔
      a.2 = true ∨ ∃ px py, px < 64 ∧ py < 32 ∧ spriteOver rows n x0 y0 px py ∧ a.1.cell px py = true) := by
  induction n with
  | zero => simp [drawSprite, spriteOver]
  | succ n ih =>
    rw [drawSprite_succ, drawRow_eq, coll_drawColumns, Bool.or_eq_true, ih, decide_eq_true_eq]
    constructor
    · rintro ((h | ⟨px, py, hx, hy, ⟨r, hr, h⟩, hc⟩) | ⟨c, hc, hb, hx, hy, h⟩)
      · exact .inl h
      · exact .inr ⟨px, py, hx, hy, ⟨r, by omega, h⟩, hc⟩
      · refine .inr ⟨x0 + c, y0 + n, hx, hy, ⟨n, by omega, c, hc, hb, rfl, rfl⟩, ?_⟩
        rw [cell_drawSprite _ _ _ _ _ _ _ hx hy] at h
        have : ¬ spriteOver rows n x0 y0 (x0 + c) (y0 + n) := by
          rintro ⟨r, hr, d, -, -, -, h⟩
          omega
        tauto
    · rintro (h | ⟨px, py, hx, hy, ⟨r, hr, c, hc, hb, rfl, rfl⟩, h⟩)
      · exact .inl (.inl h)
      · by_cases hrn : r = n
        · subst hrn
          refine .inr ⟨c, hc, hb, hx, hy, ?_⟩
          rw [cell_drawSprite _ _ _ _ _ _ _ hx hy]
          have : ¬ spriteOver rows r x0 y0 (x0 + c) (y0 + r) := by
            rintro ⟨q, hq, d, -, -, -, h⟩
            omega
          tauto
        · exact .inl (.inr ⟨x0 + c, y0 + r, hx, hy, ⟨r, by omega, c, hc, hb, rfl, rfl⟩, h⟩)

end Sys2Proof.Machine
end

