-- ==== Sys2Proof/Tests/Slice0.lean ====
section
/-! SUPPORT. Small tests. The expected results are the spec's own: the worked examples and derived vectors of
spec/95_test_vectors.md (named in each comment) and words written out from the map of spec/30_encoding.md R49. After them
stands, for every statement with hypotheses, a concrete state and operands that meet them together. -/

namespace Sys2Proof.Tests

open Sys2Proof Sys2Proof.Machine

/-! ### Decoding: one word written out from R49 for every constructor, family by family -/

theorem test_decode_flow :
    decode 0x1234 = .jp 0x234 ∧ decode 0x2ABC = .call 0xABC ∧ decode 0x03EE = .ret 3 ∧ decode 0x3112 = .seImm 1 0x12 ∧
    decode 0x4A12 = .sneImm 10 0x12 ∧ decode 0x512F = .seReg 1 2 0xF ∧ decode 0x9125 = .sneReg 1 2 5 ∧
    decode 0xBFFF = .jpV0 0xFFF := by decide

theorem test_decode_loads_and_logic :
    decode 0x6AFF = .ldImm 10 0xFF ∧ decode 0x7101 = .addImm 1 1 ∧ decode 0x8120 = .ldReg 1 2 ∧
    decode 0x8121 = .orReg 1 2 ∧ decode 0x8122 = .andReg 1 2 ∧ decode 0x8123 = .xorReg 1 2 ∧
    decode 0xC10F = .rnd 1 0x0F := by decide

theorem test_decode_alu :
    decode 0x8F14 = .addReg 15 1 ∧ decode 0x81F5 = .sub 1 15 ∧ decode 0x8126 = .shr 1 2 ∧ decode 0x8127 = .subn 1 2 ∧
    decode 0x812E = .shl 1 2 := by decide

theorem test_decode_index_memory :
    decode 0xA2F0 = .ldI 0x2F0 ∧ decode 0xF11E = .addI 1 ∧ decode 0xF129 = .ldF 1 ∧ decode 0xF333 = .ldB 3 ∧
    decode 0xF255 = .ldMemV 2 ∧ decode 0xFF65 = .ldVMem 15 := by decide

theorem test_decode_display : decode 0x00E0 = .cls 0 ∧ decode 0x01E0 = .cls 1 ∧ decode 0xDF1A = .drw 15 1 0xA := by
  decide

theorem test_decode_keys_timers :
    decode 0xE19E = .skp 1 ∧ decode 0xE1A1 = .sknp 1 ∧ decode 0xF107 = .ldVDt 1 ∧ decode 0xF10A = .ldVK 1 ∧
    decode 0xF115 = .ldDtV 1 ∧ decode 0xF118 = .ldStV 1 := by decide

theorem test_decode_no_ops :
    decode 0x0123 = .sys 0x123 ∧ decode 0x8128 = .nop8 1 2 8 ∧ decode 0x80FD = .nop8 0 0xF 0xD ∧
    decode 0xE000 = .nopE 0 0 ∧ decode 0xF0FF = .nopF 0 0xFF := by decide

/-- The first byte is the high byte (R35), and a byte list shorter than an opcode is refused by name. -/
theorem test_decode_bytes :
    decodeBytes [0x12, 0x34, 0x56] = .ok (.jp 0x234, [0x56]) ∧ decodeBytes [0x12] = .error .truncated ∧
    decodeBytes [] = .error .truncated := by
  refine ⟨rfl, rfl, rfl⟩

theorem test_decodeTableWord :
    decodeTableWord 16 0xD125 = some (.drw 1 2 5) ∧ decodeTableWord 8 0xE0 = some (.cls 0) ∧
    decodeTableWord 32 0xD125 = none := by decide

/-- The rows of spec/opcode_table.json: 38, none twice. -/
theorem test_opcodeTable : opcodeTable.length = 38 ∧ (opcodeTable.map Row.mnemonic).Nodup := by decide

/-! ### WellFormed: a no-op term that carries an instruction's sub-code is refused, for each check -/

theorem test_wf_refuses_sys : (Instr.sys 0x1E0).wf = false ∧ (Instr.sys 0x0EE).wf = false ∧ (Instr.sys 0xE00).wf = true := by
  decide

theorem test_wf_refuses_nop8 :
    (∀ n ∈ [0x0#4, 0x1#4, 0x2#4, 0x3#4, 0x4#4, 0x5#4, 0x6#4, 0x7#4, 0xE#4], (Instr.nop8 1 2 n).wf = false) ∧
    (∀ n ∈ [0x8#4, 0x9#4, 0xA#4, 0xB#4, 0xC#4, 0xD#4, 0xF#4], (Instr.nop8 1 2 n).wf = true) := by decide

theorem test_wf_refuses_nopE :
    (Instr.nopE 1 0x9E).wf = false ∧ (Instr.nopE 1 0xA1).wf = false ∧ (Instr.nopE 1 0x9F).wf = true := by decide

theorem test_wf_refuses_nopF :
    (∀ nn ∈ [0x07#8, 0x0A#8, 0x15#8, 0x18#8, 0x1E#8, 0x29#8, 0x33#8, 0x55#8, 0x65#8], (Instr.nopF 1 nn).wf = false) ∧
    (Instr.nopF 1 0x66).wf = true := by decide

/-! ### One step on a small state -/

/-- The state after RESET, with some registers set. -/
def withV (l : List (Reg × Byte)) : State := l.foldl (fun s p => s.setReg p.1 p.2) State.reset

/-- The state after one step on the word `op` placed at PC; the state itself where the step answers none. -/
def after (op : Nat) (s : State) : State :=
  match step (s.withFetchWord 16 op) with
  | .next t => t
  | .fault _ => s
  | .refused _ => s

/-- The fault latch. -/
def latch (s : State) : Byte × Word × Word × Word := (s.faultCode, s.faultPc, s.faultOp, s.faultInfo)

/-- The memory with bytes written from 0x300 on. -/
def mem300 (l : List Byte) (s : State) : State := s.setMem (s.mem.writeBytes 0x300 l)

/-- The state with SP, and STACK[0] = 0x202. -/
def withSp (k : Byte) : State := { State.reset with sp := k, stack := State.reset.stack.set 0 0x202 }

/-- F1, W1. -/
theorem test_jp : (after 0x1234 State.reset).pc = 0x234 := by decide
/-- F4. -/
theorem test_call : let t := after 0x2400 { withSp 15 with pc := 0x300 }
    t.stack[15] = 0x302 ∧ t.sp = 16 ∧ t.pc = 0x400 := by decide
/-- F5. -/
theorem test_call_overflow : let t := after 0x2400 { withSp 16 with pc := 0x400 }
    latch t = (1, 0x400, 0x2400, 16) ∧ t.sp = 16 ∧ t.pc = 0x400 := by decide
/-- F6. -/
theorem test_ret : let t := after 0x00EE (withSp 1)
    t.pc = 0x202 ∧ t.sp = 0 ∧ t.stack[0] = 0x202 := by decide
/-- S12. -/
theorem test_ret_underflow : let t := after 0x00EE { withSp 0 with pc := 0x300, dt := 5 }
    latch t = (2, 0x300, 0x00EE, 0) ∧ t.pc = 0x300 ∧ t.dt = 5 := by decide
/-- F8, F9. -/
theorem test_seImm : (after 0x3112 (withV [(1, 0x12)])).pc = 0x204 ∧ (after 0x3112 (withV [(1, 0x13)])).pc = 0x202 := by
  decide
/-- F10, F11. -/
theorem test_sneImm : (after 0x4112 (withV [(1, 0x13)])).pc = 0x204 ∧ (after 0x4112 (withV [(1, 0x12)])).pc = 0x202 := by
  decide
/-- F12, F13. -/
theorem test_seReg : (after 0x512F (withV [(1, 7), (2, 7)])).pc = 0x204 ∧
    (after 0x5120 (withV [(1, 7), (2, 8)])).pc = 0x202 := by decide
/-- F14, F15. -/
theorem test_sneReg : (after 0x9125 (withV [(1, 7), (2, 8)])).pc = 0x204 ∧ (after 0x9110 (withV [(1, 7)])).pc = 0x202 := by
  decide
/-- F17: the sum is not reduced mod 4096, and the next step cannot fetch. -/
theorem test_jpV0 : let t := after 0xBFFF (withV [(0, 0xFF)])
    t.pc = 0x10FE ∧ latch (after 0 t) = (3, 0x10FE, 0, 0x10FE) := by decide

/-- A1. -/
theorem test_ldImm : (after 0x6AFF State.reset).reg 10 = 0xFF := by decide
/-- A2. -/
theorem test_addImm : let t := after 0x7101 (withV [(1, 0xFF), (15, 0x55)])
    t.reg 1 = 0 ∧ t.reg 15 = 0x55 := by decide
/-- A4. -/
theorem test_ldReg : (after 0x8120 (withV [(2, 0x33)])).reg 1 = 0x33 := by decide
/-- A5: VF is not reset. -/
theorem test_or : let t := after 0x8121 (withV [(1, 0x0F), (2, 0xF0), (15, 0x77)])
    t.reg 1 = 0xFF ∧ t.reg 15 = 0x77 := by decide
/-- A6. -/
theorem test_and : (after 0x8122 (withV [(1, 0x3C), (2, 0x0F)])).reg 1 = 0x0C := by decide
/-- A7. -/
theorem test_xor : (after 0x8113 (withV [(1, 0x5A)])).reg 1 = 0 := by decide
/-- A8, A9. -/
theorem test_addReg : let t := after 0x8124 (withV [(1, 0xFF), (2, 1)])
    let u := after 0x8124 (withV [(1, 0x7F), (2, 1)])
    (t.reg 1, t.reg 15) = (0, 1) ∧ (u.reg 1, u.reg 15) = (0x80, 0) := by decide
/-- A12, A13, A14: X or Y is 15. -/
theorem test_addReg_vf : (after 0x8F14 (withV [(15, 0xFF), (1, 1)])).reg 15 = 2 ∧
    (after 0x81F4 (withV [(1, 0xFF), (15, 2)])).reg 1 = 0 ∧ (after 0x8FF4 (withV [(15, 0x80)])).reg 15 = 2 := by decide
/-- A16, A17: strict. -/
theorem test_sub : let t := after 0x8125 (withV [(1, 3), (2, 5)])
    let u := after 0x8125 (withV [(1, 5), (2, 5)])
    (t.reg 1, t.reg 15) = (0xFE, 0) ∧ (u.reg 1, u.reg 15) = (0, 0) := by decide
/-- A18, A19: X or Y is 15. -/
theorem test_sub_vf : (after 0x8F15 (withV [(15, 5), (1, 3)])).reg 15 = 0xFE ∧
    (after 0x81F5 (withV [(1, 5), (15, 3)])).reg 1 = 4 := by decide
/-- A20, A22. -/
theorem test_shr : let t := after 0x8126 (withV [(1, 5), (2, 0xFF)])
    (t.reg 1, t.reg 15) = (2, 1) ∧ (after 0x8F06 (withV [(15, 3)])).reg 15 = 0 := by decide
/-- A23, A24. -/
theorem test_subn : let t := after 0x8127 (withV [(1, 3), (2, 5)])
    let u := after 0x8127 (withV [(1, 5), (2, 3)])
    (t.reg 1, t.reg 15) = (2, 1) ∧ (u.reg 1, u.reg 15) = (0xFE, 0) := by decide
/-- A26, A27: X or Y is 15. -/
theorem test_subn_vf : (after 0x8F17 (withV [(15, 3), (1, 5)])).reg 15 = 4 ∧
    (after 0x81F7 (withV [(1, 3), (15, 5)])).reg 1 = 0xFE := by decide
/-- A28, A30, A31. -/
theorem test_shl : let t := after 0x812E (withV [(1, 0x81)])
    (t.reg 1, t.reg 15) = (2, 1) ∧ (after 0x8F0E (withV [(15, 0x81)])).reg 15 = 2 ∧
    (after 0x8F0E (withV [(15, 0x7F)])).reg 15 = 0 := by decide
/-- A32, A33, A34, with the random input given. -/
theorem test_rnd : (rndWith 0xA5 1 0x0F State.reset).reg 1 = 5 ∧ (rndWith 0xA5 1 0 State.reset).reg 1 = 0 ∧
    (rndWith 0x3C 1 0xFF State.reset).reg 1 = 0x3C := by decide

/-- M1. -/
theorem test_ldI : (after 0xA2F0 State.reset).i = 0x2F0 := by decide
/-- M2, M3. -/
theorem test_addI : (after 0xF11E { withV [(1, 2)] with i := 0xFFFF }).i = 1 ∧
    (after 0xF11E { withV [(1, 1)] with i := 0xFFF }).i = 0x1000 := by decide
/-- M4, M5: V[x] is not reduced to its low nibble. -/
theorem test_ldF : (after 0xF129 (withV [(1, 0x0F)])).i = 0x4B ∧ (after 0xF129 (withV [(1, 0xFF)])).i = 0x4FB := by decide
/-- M9. -/
theorem test_ldB : let t := after 0xF133 { withV [(1, 254)] with i := 0x300 }
    [0x300, 0x301, 0x302].map t.mem.read = [2, 5, 4] ∧ t.i = 0x300 := by decide
/-- M11. -/
theorem test_ldB_fault : let t := after 0xF133 { withV [(1, 254)] with i := 0xFFE }
    latch t = (4, 0x200, 0xF133, 0xFFE) ∧ t.mem.read 0xFFE = 0 := by decide
/-- M12. -/
theorem test_ldMemV : let t := after 0xF255 { withV [(0, 1), (1, 2), (2, 3), (3, 4)] with i := 0x300 }
    [0x300, 0x301, 0x302, 0x303].map t.mem.read = [1, 2, 3, 0] ∧ t.i = 0x300 := by decide
/-- M14, M15: no wrap. -/
theorem test_ldMemV_fault : latch (after 0xF155 { State.reset with i := 0xFFF }) = (4, 0x200, 0xF155, 0xFFF) ∧
    latch (after 0xF055 { State.reset with i := 0xFFFF }) = (4, 0x200, 0xF055, 0xFFFF) := by decide
/-- M16. -/
theorem test_ldVMem : let t := after 0xF465 State.reset
    [0, 1, 2, 3, 4, 5].map t.reg = [0xF0, 0x90, 0x90, 0x90, 0xF0, 0] := by decide
/-- M18. -/
theorem test_ldVMem_fault : latch (after 0xFF65 { State.reset with i := 0xFF1 }) = (4, 0x200, 0xFF65, 0xFF1) := by decide

/-- D1. -/
theorem test_cls : let t := after 0x01E0 { withV [(15, 0x33)] with disp := (Display.clear.toggle 0 0).toggle 63 31 }
    t.disp = Display.clear ∧ t.dirty = true ∧ t.reg 15 = 0x33 := by decide
/-- D5, D6, D7: clipped, not wrapped. -/
theorem test_drw_clips : let s := mem300 [0xFF, 0xFF] { State.reset with i := 0x300 }
    (after 0xD121 (s.setReg 1 60)).disp = State.reset.disp.set 0 (0xF000000000000000) ∧
    (after 0xD121 (s.setReg 1 64)).disp = State.reset.disp ∧
    (after 0xD122 (s.setReg 2 31)).disp = State.reset.disp.set 31 0xFF := by decide
/-- D8, D9: collision, and the coordinate is read before VF is written. -/
theorem test_drw_vf : let t := after 0xD121 (mem300 [0xC0] { State.reset with i := 0x300, disp := Display.clear.toggle 1 0 })
    let u := after 0xDF11 (mem300 [0x80] { withV [(15, 5)] with i := 0x300 })
    (t.disp.cell 0 0, t.disp.cell 1 0, t.reg 15) = (true, false, 1) ∧ (u.disp.cell 5 0, u.reg 15) = (true, 0) := by decide
/-- D10. -/
theorem test_drw_fault : let t := after 0xD122 { State.reset with i := 0xFFF }
    latch t = (4, 0x200, 0xD122, 0xFFF) ∧ t.dirty = false := by decide

/-- K1, K2. -/
theorem test_skp : (after 0xE19E (hostSetKey 3 true (withV [(1, 3)]))).pc = 0x204 ∧
    (after 0xE19E (withV [(1, 3)])).pc = 0x202 := by decide
/-- K5. -/
theorem test_skp_fault : latch (after 0xE19E (withV [(1, 0x10)])) = (5, 0x200, 0xE19E, 0x10) := by decide
/-- K3, K4. -/
theorem test_sknp : (after 0xE1A1 (hostSetKey 3 true (withV [(1, 3)]))).pc = 0x202 ∧
    (after 0xE1A1 (withV [(1, 3)])).pc = 0x204 := by decide
/-- K6. -/
theorem test_ldVDt : let t := after 0xF107 { State.reset with dt := 5 }
    t.reg 1 = 5 ∧ t.dt = 4 := by decide
/-- K8, K9. -/
theorem test_ldVK : (after 0xF10A (hostSetKey 3 true (withV [(1, 3)]))).reg 1 = 1 ∧
    (after 0xF10A (withV [(1, 3)])).reg 1 = 0 := by decide
/-- K10. -/
theorem test_ldVK_fault : latch (after 0xF10A (withV [(1, 0x20)])) = (5, 0x200, 0xF10A, 0x20) := by decide
/-- K11, K12. -/
theorem test_ldDtV : (after 0xF115 (withV [(1, 0x10)])).dt = 0x0F ∧ (after 0xF115 (withV [(1, 0)])).dt = 0 := by decide
/-- K13, K14. -/
theorem test_ldStV : (after 0xF118 (withV [(1, 1)])).sound = false ∧ (after 0xF118 (withV [(1, 2)])).sound = true := by
  decide
/-- S6, S7, S8: the no-ops. -/
theorem test_no_ops : after 0x8008 { State.reset with dt := 3, st := 1 } =
      { State.reset.withFetchWord 16 0x8008 with pc := 0x202, dt := 2, st := 0 } ∧
    after 0x0123 State.reset = { State.reset.withFetchWord 16 0x0123 with pc := 0x202 } ∧
    after 0xE000 State.reset = { State.reset.withFetchWord 16 0xE000 with pc := 0x202 } ∧
    after 0xF0FF State.reset = { State.reset.withFetchWord 16 0xF0FF with pc := 0x202 } := by decide

/-- S2, S3, S4: an odd PC, the last address of an opcode, and the fault after it. -/
theorem test_fetch : (after 0x6007 { State.reset with pc := 0x201 }).pc = 0x203 ∧
    (after 0x00E0 { State.reset with pc := 0xFFE }).pc = 0x1000 ∧
    latch (after 0 { State.reset with pc := 0xFFF }) = (3, 0xFFF, 0, 0xFFF) := by decide
/-- S11. -/
theorem test_halted : step { State.reset with faultCode := 1, dt := 7 } = .next { State.reset with faultCode := 1, dt := 7 } :=
  rfl
/-- W7: after LOAD, the first step from RESET runs the program's first word. -/
theorem test_load : let s := (hostLoad [0x60, 0x05, 0x70, 0x05] State.reset).2
    s.opcodeAtPc = 0x6005 ∧ (hostLoad [0x60, 0x05, 0x70, 0x05] State.reset).1 = .accepted := by decide
/-- L1, L5: RESET clears the latch and writes the font. -/
theorem test_reset : let t := hostReset (Vector.replicate 80 7) { State.reset with faultCode := 1, pc := 0xFFF }
    t.faultCode = 0 ∧ t.pc = 0x200 ∧ t.mem.read 0x4F = 7 ∧ State.reset.mem.read 0x4F = 0x80 ∧
    State.reset.mem.read 0x50 = 0 := by decide
/-- The host reads a cell as the byte 0 or 1 (R21): D2's cell. -/
theorem test_hostRead : let s : State := { State.reset with disp := Display.clear.toggle 1 0 }
    (hostRead s).disp[0]? = some 0 ∧ (hostRead s).disp[1]? = some 1 := by
  simp only [hostRead, State.dispBytes, Config.dispW, Config.dispH, List.getElem?_map]
  rw [List.getElem?_range (by decide), List.getElem?_range (by decide)]
  decide
/-- W8, and R57's no-op text. -/
theorem test_listing : listing 0 [0x00, 0xE0, 0xA2, 0xF0, 0x80, 0x08, 0x01] =
    ["ADDR 0x0000: CLS\n", "ADDR 0x0002: LD I, 0x2f0\n", "ADDR 0x0004: .word 0x8008\n"] := by decide

/-! ### Witnesses: for each statement with hypotheses, states and operands that meet them together -/

/-- The state after RESET with I set. -/
def withI (a : Word) : State := { State.reset with i := a }

theorem withI_inv (a : Word) : (withI a).Inv := ⟨rfl, (by decide : (0 : Byte).toNat ≤ 16), (by decide : (0 : Byte).toNat ≤ 5), fun _ => ⟨rfl, rfl, rfl⟩⟩

theorem reset_inv : State.reset.Inv := ⟨rfl, by decide, by decide, fun _ => ⟨rfl, rfl, rfl⟩⟩

theorem reset_ready : State.reset.ready := ⟨rfl, by decide⟩

theorem witness_DecodeOfEncode :
    (Instr.sys 0x123).wf = true ∧ (Instr.nop8 1 2 0xF).wf = true ∧ (Instr.nopE 1 0x9F).wf = true ∧
    (Instr.nopF 1 0x64).wf = true ∧ (Instr.drw 15 15 15).wf = true := by decide

theorem witness_DecoderFollowsOpcodeTable :
    ∃ r ∈ opcodeTable, r.fallback = false ∧ r.matchesWord 0x8004 = true := by decide

/-- The instruction commits, faults, and stops by name. -/
theorem witness_StepRunsDecodedInstruction :
    let a := State.reset.withFetchWord 16 0x6007
    let b := State.reset.withFetchWord 16 0x00EE
    let c := (withSp 17).withFetchWord 16 0x00EE
    (a.ready ∧ decode (BitVec.ofNat 16 a.opcodeAtPc) = .ldImm 0 7 ∧
      ∃ t, exec (.ldImm 0 7) a = .next t ∧ t.faultCode = 0) ∧
    (b.ready ∧ decode (BitVec.ofNat 16 b.opcodeAtPc) = .ret 0 ∧ ∃ t, exec (.ret 0) b = .next t ∧ t.faultCode ≠ 0) ∧
    (c.ready ∧ decode (BitVec.ofNat 16 c.opcodeAtPc) = .ret 0 ∧ exec (.ret 0) c = .fault .stackPointerAbove16) :=
  ⟨⟨⟨rfl, by decide⟩, by decide, _, rfl, by decide⟩, ⟨⟨rfl, by decide⟩, by decide, _, rfl, by decide⟩,
    ⟨rfl, by decide⟩, by decide, rfl⟩

theorem witness_HaltedStepChangesNothing : ({ State.reset with faultCode := 5 } : State).faultCode ≠ 0 := by decide

theorem witness_FetchBeyondMemoryFaults :
    let a : State := { State.reset with pc := 0xFFF }
    let b : State := { State.reset with pc := 0xFFFF }
    (a.faultCode = 0 ∧ 0xFFF ≤ a.pc.toNat) ∧ b.faultCode = 0 ∧ 0xFFF ≤ b.pc.toNat := by decide

theorem witness_PlacedWordIsFetched :
    State.reset.Inv ∧ State.reset.ready ∧ ({ State.reset with pc := 0xFFE } : State).ready :=
  ⟨reset_inv, reset_ready, rfl, by decide⟩

theorem witness_NoOpStepOnlyAdvancesAndTicks :
    let a := State.reset
    let b := a.withFetchWord 16 0x812F
    let c := a.withFetchWord 16 0xE19F
    let d := a.withFetchWord 16 0xF166
    a.ready ∧ (a.opcodeAtPc / 4096 = 0 ∧ a.opcodeAtPc % 256 ∉ [0xE0, 0xEE]) ∧
    b.ready ∧ (b.opcodeAtPc / 4096 = 8 ∧ b.opcodeAtPc % 16 ∈ [0x8, 0x9, 0xA, 0xB, 0xC, 0xD, 0xF]) ∧
    c.ready ∧ (c.opcodeAtPc / 4096 = 0xE ∧ c.opcodeAtPc % 256 ∉ [0x9E, 0xA1]) ∧
    d.ready ∧ (d.opcodeAtPc / 4096 = 0xF ∧
      d.opcodeAtPc % 256 ∉ [0x07, 0x0A, 0x15, 0x18, 0x1E, 0x29, 0x33, 0x55, 0x65]) :=
  ⟨reset_ready, by decide, ⟨rfl, by decide⟩, by decide, ⟨rfl, by decide⟩, by decide, ⟨rfl, by decide⟩, by decide⟩

/-- One witness for each arm of the statement. -/
theorem witness_ProvisionalPc :
    (∃ t, exec (.jp 0) State.reset = .next t ∧ t.faultCode = 0) ∧
    (∃ t, exec (.call 0) (withSp 15) = .next t ∧ t.faultCode = 0 ∧ (withSp 15).sp.toNat < 16) ∧
    (∃ t, exec (.ret 0) (withSp 16) = .next t ∧ t.faultCode = 0 ∧ (withSp 16).sp.toNat - 1 < 16) ∧
    (∃ t, exec (.jpV0 0xFFF) (withV [(0, 0xFF)]) = .next t ∧ t.faultCode = 0) ∧
    (∃ t, exec (.skp 0) State.reset = .next t ∧ t.faultCode = 0) ∧
    (∃ t, exec (.ldVMem 15) State.reset = .next t ∧ t.faultCode = 0) ∧ State.reset.faultCode = 0 :=
  ⟨⟨_, rfl, by decide⟩, ⟨_, rfl, by decide⟩, ⟨_, rfl, by decide⟩, ⟨_, rfl, by decide⟩, ⟨_, rfl, by decide⟩,
    ⟨_, rfl, by decide⟩, rfl⟩

/-- A step that faults, one that writes DT, one that writes ST, and one that leaves ST = 1 before its tick. -/
theorem witness_TimersTickOncePerStep :
    let a := State.reset.withFetchWord 16 0x00EE
    let b := (withV [(1, 1)]).withFetchWord 16 0xF115
    let c := (withV [(1, 1)]).withFetchWord 16 0xF118
    (a.ready ∧ ∃ t, step a = .next t ∧ t.faultCode ≠ 0) ∧
    (b.ready ∧ decode b.fetchWord = .ldDtV 1 ∧ ∃ t, step b = .next t ∧ t.faultCode = 0) ∧
    (c.ready ∧ decode c.fetchWord = .ldStV 1 ∧ (∃ t, step c = .next t ∧ t.faultCode = 0) ∧
      ∃ u, exec (.ldStV 1) c = .next u ∧ u.st = 1) :=
  ⟨⟨⟨rfl, by decide⟩, _, rfl, by decide⟩, ⟨⟨rfl, by decide⟩, by decide, _, rfl, by decide⟩, ⟨rfl, by decide⟩, by decide,
    ⟨_, rfl, by decide⟩, _, rfl, by decide⟩

/-- A jump to itself, and a jump to 0xFFF. -/
theorem witness_JumpToTarget :
    let a := State.reset.withFetchWord 16 0x1200
    let b := State.reset.withFetchWord 16 0x1FFF
    (a.ready ∧ a.opcodeAtPc = 0x1000 + (0x200 : Addr12).toNat ∧ a.pc = (0x200 : Addr12).setWidth 16) ∧
    b.ready ∧ b.opcodeAtPc = 0x1FFF :=
  ⟨⟨⟨rfl, by decide⟩, by decide, by decide⟩, ⟨rfl, by decide⟩, by decide⟩

theorem witness_IndexedJump : ∃ t, exec (.jpV0 0xF00) (withV [(0, 0xFF)]) = .next t ∧ t.faultCode = 0 ∧ 0xFFE < t.pc.toNat :=
  ⟨_, rfl, by decide, by decide⟩

theorem witness_ReturnPops :
    (0 < (withSp 1).sp.toNat ∧ (withSp 1).sp.toNat ≤ 16) ∧ (0 < (withSp 16).sp.toNat ∧ (withSp 16).sp.toNat ≤ 16) ∧
    (withSp 0).sp = 0 := by decide

theorem witness_CallPushes : (withSp 0).sp.toNat < 16 ∧ (withSp 15).sp.toNat < 16 ∧ (withSp 16).sp = 16 := by decide

theorem witness_StackPointerAbove16Stops : 16 < (withSp 17).sp.toNat ∧ 16 < (withSp 255).sp.toNat := by decide

theorem witness_ReturnResumesAfterCall : (withSp 15).sp.toNat < 16 ∧
    ∃ t, exec (.call 0x400) (withSp 15) = .next t ∧ t.sp = t.sp ∧ t.stack = t.stack :=
  ⟨by decide, _, rfl, rfl, rfl⟩

theorem witness_ImmediateLoadAndAdd : (15 : Reg) ≠ 1 ∧ (1 : Reg) ≠ 15 := by decide

theorem witness_CopyAndLogic : (15 : Reg) ≠ 1 ∧ (1 : Reg) ≠ 15 := by decide

/-- A carry and none, and X = 15. -/
theorem witness_AddWithCarry :
    let s := withV [(1, 0xFF), (2, 1), (15, 0)]
    (1 = if (s.reg 1).toNat + (s.reg 2).toNat > 255 then 1 else 0) ∧
    (0 = if (s.reg 1).toNat + (s.reg 15).toNat > 255 then 1 else 0) ∧
    (0 = if (s.reg 15).toNat + (s.reg 1).toNat > 255 then 1 else 0) ∧ (1 : Reg) ≠ 15 := by decide

theorem witness_ShiftByOne : (1 : Reg) ≠ 15 ∧ (2 : Reg) ≠ 1 ∧ (2 : Reg) ≠ 15 := by decide

theorem witness_RandomByteMasked : (0 : Byte) = 0 ∧ (0xFF : Byte) = 0xFF ∧ (0x0F : Byte).getLsbD 3 = true ∧ (2 : Reg) ≠ 1 := by
  decide

/-- V[x] above, below and equal to V[y], and X = 15. -/
theorem witness_SubtractBothWays :
    let s := withV [(1, 5), (2, 3), (15, 5)]
    (1 = if (s.reg 1).toNat > (s.reg 2).toNat then 1 else 0) ∧ (0 = if (s.reg 2).toNat > (s.reg 1).toNat then 1 else 0) ∧
    (0 = if (s.reg 15).toNat > (s.reg 1).toNat then 1 else 0) ∧ (1 = if (s.reg 15).toNat > (s.reg 2).toNat then 1 else 0) := by
  decide

theorem witness_DecimalDigitsStored : (withI 0xFFD).Inv ∧ (withI 0xFFD).i.toNat + 2 ≤ 0xFFF ∧
    (withI 0xFFD).dataAddr 0 = 0xFFD := ⟨withI_inv _, by decide, by decide⟩

theorem witness_RegisterBlockStored : (withI 0xFFF).Inv ∧ (withI 0xFFF).i.toNat + (0 : Reg).val ≤ 0xFFF ∧
    (withI 0xFF0).Inv ∧ (withI 0xFF0).i.toNat + (15 : Reg).val ≤ 0xFFF :=
  ⟨withI_inv _, by decide, withI_inv _, by decide⟩

theorem witness_RegisterBlockLoaded : (withI 0xFFF).i.toNat + (0 : Reg).val ≤ 0xFFF ∧
    (withI 0xFF0).i.toNat + (15 : Reg).val ≤ 0xFFF := by decide

theorem witness_StoreThenLoadRestores : (withI 0xFF0).Inv ∧ (withI 0xFF0).i.toNat + (15 : Reg).val ≤ 0xFFF ∧
    ∃ t, exec (.ldMemV 15) (withI 0xFF0) = .next t ∧ t.i = t.i ∧ t.mem = t.mem :=
  ⟨withI_inv _, by decide, _, rfl, rfl, rfl⟩

theorem witness_DataAccessBeyondMemoryFaults :
    0xFFF < (withI 0xFFE).i.toNat + 2 ∧ 0xFFF < (withI 0x1000).i.toNat + (0 : Reg).val ∧
    0xFFF < (withI 0xFF1).i.toNat + (15 : Reg).val ∧
    (0 < (2 : Nibble).toNat ∧ 0xFFF < (withI 0xFFF).i.toNat + (2 : Nibble).toNat - 1) := by decide

theorem witness_StoreIsFetched : (withI 0xFFE).Inv ∧ (withI 0xFFE).i.toNat + (1 : Reg).val ≤ 0xFFF ∧
    (1 : Reg).val = (0 : Reg).val + 1 ∧ (1 : Reg) ≤ 1 ∧
    ∃ t, exec (.ldMemV 1) (withI 0xFFE) = .next t ∧
      ({ t with pc := 0xFFE } : State).mem = t.mem ∧ ({ t with pc := 0xFFE } : State).pc.toNat = (withI 0xFFE).i.toNat + 0 :=
  ⟨withI_inv _, by decide, by decide, by decide, _, rfl, rfl, by decide⟩

/-- A sprite with no rows anywhere, and the longest one at the end of memory; a covered cell and one that is not. -/
theorem witness_DrawTogglesCoveredCells :
    ((0 : Nibble).toNat = 0) ∧ ((withI 0xFF1).i.toNat + (15 : Nibble).toNat - 1 ≤ 0xFFF) ∧
    State.reset.covers 1 2 5 0 0 ∧ ¬ State.reset.covers 1 2 5 63 31 := by
  refine ⟨by decide, by decide, ⟨0, 0, by decide, by decide, by decide, by decide, by decide⟩, ?_⟩
  rintro ⟨r, c, hr, hc, -, h, -⟩
  have : (State.reset.reg 2).toNat = 0 := by decide
  omega

/-- A draw over a set cell, and one over none. -/
theorem witness_CollisionFlag :
    let s : State := { State.reset with disp := Display.clear.toggle 0 0 }
    (s.i.toNat + (5 : Nibble).toNat - 1 ≤ 0xFFF) ∧
    (∃ px py, px < 64 ∧ py < 32 ∧ s.covers 1 2 5 px py ∧ s.disp.cell px py = true) ∧
    ¬ ∃ px py, px < 64 ∧ py < 32 ∧ s.covers 1 2 0 px py ∧ s.disp.cell px py = true := by
  refine ⟨by decide, ⟨0, 0, by decide, by decide, ⟨0, 0, by decide, by decide, by decide, by decide, by decide⟩,
    by decide⟩, ?_⟩
  rintro ⟨px, py, -, -, ⟨r, c, hr, -⟩, -⟩
  omega

theorem witness_DrawTwiceRestores : ∃ t, exec (.drw 1 2 5) State.reset = .next t ∧
    t.disp = t.disp ∧ t.i = State.reset.i ∧ t.reg 1 = State.reset.reg 1 ∧ t.reg 2 = State.reset.reg 2 ∧
    (State.reset.i.toNat + (5 : Nibble).toNat - 1 ≤ 0xFFF) ∧
    ∀ r, r < 5 → t.mem.read (t.i.toNat + r) = State.reset.mem.read (State.reset.i.toNat + r) :=
  ⟨_, rfl, rfl, rfl, by decide, by decide, by decide, fun _ _ => rfl⟩

theorem witness_DirtySetOnlyByDraws :
    (∃ t, exec (.cls 0) State.reset = .next t ∧ t.faultCode = 0) ∧
    (∃ t, exec (.drw 0 0 1) State.reset = .next t ∧ t.faultCode = 0) ∧
    (∃ t, exec (.drw 0 0 2) (withI 0xFFF) = .next t ∧ t.faultCode ≠ 0) ∧
    (∃ t, exec (.jp 0) State.reset = .next t ∧ t.faultCode = 0) ∧ State.reset.faultCode = 0 ∧ (withI 0xFFF).faultCode = 0 :=
  ⟨⟨_, rfl, by decide⟩, ⟨_, rfl, by decide⟩, ⟨_, rfl, by decide⟩, ⟨_, rfl, by decide⟩, rfl, rfl⟩

theorem witness_DirtyClearedOnlyByHost :
    (∃ t, step { State.reset with dirty := true } = .next t) ∧
    (hostClearDirty State.reset).ready ∧ (∃ t, step (hostClearDirty State.reset) = .next t ∧ t.faultCode = 0) ∧
    decode (State.reset.withFetchWord 16 0x00E0).fetchWord = .cls 0 ∧
    ∃ t, step (hostClearDirty (State.reset.withFetchWord 16 0x00E0)) = .next t ∧ t.faultCode = 0 :=
  ⟨⟨_, rfl⟩, ⟨rfl, by decide⟩, ⟨_, rfl, by decide⟩, by decide, _, rfl, by decide⟩

theorem witness_SkipsOnKey : ((withV [(1, 15)]).reg 1).toNat < 16 ∧ ((withV [(1, 0)]).reg 1).toNat < 16 := by decide

theorem witness_KeyReadAtOnce : ((withV [(15, 15)]).reg 15).toNat < 16 := by decide

theorem witness_KeyIndexBeyondKeypadFaults : 15 < ((withV [(1, 16)]).reg 1).toNat ∧ 15 < ((withV [(1, 255)]).reg 1).toNat := by
  decide

theorem witness_DelayTimerReadAndWritten :
    let a := State.reset.withFetchWord 16 0xF107
    let b := State.reset.withFetchWord 16 0xFF15
    (a.ready ∧ a.opcodeAtPc = 0xF007 + 256 * (1 : Reg).val) ∧ b.ready ∧ b.opcodeAtPc = 0xF015 + 256 * (15 : Reg).val :=
  ⟨⟨⟨rfl, by decide⟩, by decide⟩, ⟨rfl, by decide⟩, by decide⟩

/-- V[x] = 1, and V[x] = 2 followed by a committed step that writes no ST. -/
theorem witness_SoundTimerWritten :
    let a := (withV [(1, 1)]).withFetchWord 16 0xF118
    let b := (withV [(1, 2)]).withFetchWord 16 0xF118
    (a.ready ∧ a.opcodeAtPc = 0xF018 + 256 * (1 : Reg).val ∧ a.reg 1 = 1) ∧
    (b.ready ∧ b.opcodeAtPc = 0xF018 + 256 * (1 : Reg).val ∧ b.reg 1 = 2 ∧
      (after 0xF118 b).pc.toNat + 1 ≤ 0xFFF ∧ decode (after 0xF118 b).fetchWord = .sys 0 ∧
      ∃ u, step (after 0xF118 b) = .next u ∧ u.faultCode = 0) :=
  ⟨⟨⟨rfl, by decide⟩, by decide, by decide⟩, ⟨rfl, by decide⟩, by decide, by decide, by decide, by decide, _, rfl, by decide⟩

/-- A fault of the fetch, and one of an instruction. -/
theorem witness_FaultIsPrecise :
    let a : State := { State.reset with pc := 0xFFF }
    let b := State.reset.withFetchWord 16 0x00EE
    (a.faultCode = 0 ∧ ∃ t, step a = .next t ∧ t.faultCode = 3) ∧
    (b.faultCode = 0 ∧ ∃ t, step b = .next t ∧ t.faultCode ≠ 0 ∧ t.faultCode ≠ 3) :=
  ⟨⟨rfl, _, rfl, by decide⟩, rfl, _, rfl, by decide⟩

/-- The invariant with a running core, and each cause's condition at its boundary. -/
theorem witness_FaultCausesExactly :
    State.reset.Inv ∧ State.reset.faultCode = 0 ∧ 0xFFF < ({ State.reset with pc := 0xFFF } : State).pc.toNat + 1 ∧
    (withSp 16).sp.toNat = 16 ∧ (withSp 0).sp.toNat = 0 ∧ 0xFFF < (withI 0xFFF).i.toNat + (2 : Nibble).toNat - 1 ∧
    0xFFF < (withI 0xFFE).i.toNat + 2 ∧ 0xFFF < (withI 0xFF1).i.toNat + (15 : Reg).val ∧
    15 < ((withV [(1, 16)]).reg 1).toNat := ⟨reset_inv, by decide⟩

theorem witness_OnlyNamedInstructionsFault : decode 0x8008 = .nop8 0 0 8 ∧
    (withI 0xFF1).i.toNat + (15 : Nibble).toNat ≤ 4096 ∧ 3584 < (List.replicate 3585 (0 : Byte)).length :=
  ⟨by decide, by decide, by rw [List.length_replicate]; decide⟩

/-- RESET of a core with a fault latched and every register away from its reset value, and the bounds of the addresses. -/
theorem witness_ResetValues :
    (State.reset = State.reset ∨ ∃ (font : Vector Byte 80) (s : State), State.reset = hostReset font s) ∧
    (∃ (font : Vector Byte 80) (s : State), s.faultCode = 5 ∧ s.pc = 0xFFE ∧
      hostReset (Vector.replicate 80 7) { withV [(0, 1), (15, 1)] with pc := 0xFFE, dt := 9, faultCode := 5 } =
        hostReset font s) ∧
    0x50 ≤ 0x50 ∧ 0x50 ≤ 0xFFF ∧ 0xFFF ≤ 0xFFF ∧ 0 < 80 ∧ 79 < 80 ∧ 63 < 64 ∧ 31 < 32 ∧ 15 < 16 :=
  ⟨.inl rfl, ⟨_, _, rfl, rfl, rfl⟩, by decide⟩

theorem witness_ResetWritesFont : 15 < 16 ∧ 4 < 5 ∧ 0 < 16 ∧ 0 < 5 := by decide

theorem witness_LoadCopiesProgram : State.reset.Inv ∧ (List.replicate 3584 (7 : Byte)).length ≤ 3584 ∧
    3583 < (List.replicate 3584 (7 : Byte)).length ∧ (0x1FF < 0x200) :=
  ⟨reset_inv, by rw [List.length_replicate], by rw [List.length_replicate]; decide, by decide⟩

theorem witness_LoadTooLongRejected : 3584 < (List.replicate 3585 (7 : Byte)).length := by
  rw [List.length_replicate]; decide

theorem witness_KeypadWrittenOnlyByHost : ∃ t, step State.reset = .next t := ⟨_, rfl⟩

theorem witness_ListingLines : 2 * 1 + 1 < [0x00#8, 0xE0#8, 0xA2#8, 0xF0#8].length := by decide

/-- For each element the statement names, an instruction that commits and writes it. -/
theorem witness_WritersOfMemoryIndexStackTimersScreen : State.reset.faultCode = 0 ∧ (withSp 0).faultCode = 0 ∧
    (∃ t, exec (.ldB 0) (withI 0x300) = .next t ∧ t.faultCode = 0) ∧
    (∃ t, exec (.ldMemV 15) (withI 0x300) = .next t ∧ t.faultCode = 0) ∧
    (∃ t, exec (.ldF 0) State.reset = .next t ∧ t.faultCode = 0) ∧
    (∃ t, exec (.call 0) (withSp 0) = .next t ∧ t.faultCode = 0) ∧
    (∃ t, exec (.ldDtV 0) State.reset = .next t ∧ t.faultCode = 0) ∧
    (∃ t, exec (.cls 0) State.reset = .next t ∧ t.faultCode = 0) ∧
    (∃ t, exec (.rnd 0 0) State.reset = .next t ∧ t.faultCode = 0) :=
  ⟨rfl, rfl, ⟨_, rfl, by decide⟩, ⟨_, rfl, by decide⟩, ⟨_, rfl, by decide⟩, ⟨_, rfl, by decide⟩, ⟨_, rfl, by decide⟩,
    ⟨_, rfl, by decide⟩, _, rfl, rfl⟩

/-- A flag writer, an instruction with an ordinary destination other than VF, and one of the rest. -/
theorem witness_WritersOfVF : State.reset.faultCode = 0 ∧
    (∃ t, exec (.addReg 1 2) State.reset = .next t ∧ t.faultCode = 0) ∧
    ((14 : Reg) ≠ 15 ∧ ∃ t, exec (.ldVMem 14) State.reset = .next t ∧ t.faultCode = 0) ∧
    (∃ t, exec (.skp 0) State.reset = .next t ∧ t.faultCode = 0) :=
  ⟨rfl, ⟨_, rfl, by decide⟩, ⟨by decide, _, rfl, by decide⟩, _, rfl, by decide⟩

theorem witness_StepKeepsInvariant : State.reset.Inv ∧ ∃ t, step State.reset = .next t := ⟨reset_inv, _, rfl⟩

theorem witness_HostOperationsKeepInvariant : State.reset.Inv := reset_inv

end Sys2Proof.Tests
end

section
/-! PROOFS. The encoding family (spec/30_encoding.md): the six fields by shift and mask, and what the sub-codes of the
classes 0x8, 0xE and 0xF select. -/

namespace Sys2Proof

/-! ### Masks and overlaps of the fields (R46) -/

/-- A shift and the mask 0xF are the division and remainder in which the laws give the nibble fields. -/
theorem shiftRight_and_0xF (v k : Nat) : (v >>> k) &&& 0xF = v / 2 ^ k % 16 := by
  rw [Nat.shiftRight_eq_div_pow]
  exact Nat.and_two_pow_sub_one_eq_mod _ 4

theorem fieldNN_toNat_eq_fieldY_fieldN (op : Word) :
    (fieldNN op).toNat = (fieldY op).toNat * 16 + (fieldN op).toNat := by
  rw [fieldNN_toNat, fieldY_toNat, fieldN_toNat]
  omega

theorem fieldNNN_toNat_eq_fieldX_fieldNN (op : Word) :
    (fieldNNN op).toNat = (fieldX op).toNat * 256 + (fieldNN op).toNat := by
  rw [fieldNNN_toNat, fieldX_toNat, fieldNN_toNat]
  omega

/-- Settles O2: each field is a quotient and a remainder of the opcode by powers of two, and the overlaps are
arithmetic of those. -/
theorem fieldsByShiftAndMask : Obligations.FieldsByShiftAndMask := by
  intro op
  refine ⟨?_, ?_, ?_, ?_, ?_, ?_, fieldNN_toNat_eq_fieldY_fieldN op, fieldNNN_toNat_eq_fieldX_fieldNN op⟩
  · rw [fieldC_toNat]
    exact (shiftRight_and_0xF _ 12).symm
  · rw [fieldX_toNat]
    exact (shiftRight_and_0xF _ 8).symm
  · rw [fieldY_toNat]
    exact (shiftRight_and_0xF _ 4).symm
  · rw [fieldN_toNat]
    exact (Nat.and_two_pow_sub_one_eq_mod _ 4).symm
  · rw [fieldNN_toNat]
    exact (Nat.and_two_pow_sub_one_eq_mod _ 8).symm
  · rw [fieldNNN_toNat]
    exact (Nat.and_two_pow_sub_one_eq_mod _ 12).symm

/-! ### The classes that have sub-codes (R49) -/

theorem decode_of_class8 {op : Word} (h : fieldC op = 0x8#4) : decode op = decodeClass8 op := by
  rw [decode_eq, h]
  rfl

theorem decode_of_classE {op : Word} (h : fieldC op = 0xE#4) : decode op = decodeClassE op := by
  rw [decode_eq, h]
  rfl

theorem decode_of_classF {op : Word} (h : fieldC op = 0xF#4) : decode op = decodeClassF op := by
  rw [decode_eq, h]
  rfl

/-! ### What the sub-codes select (R52, R53, R54) -/

theorem decode_packXYN_class8 (x y : Reg) (n : Nibble) :
    decode (packXYN 0x8 x.val y.val n.toNat) =
      if n = 0x0 then .ldReg x y else if n = 0x1 then .orReg x y else if n = 0x2 then .andReg x y
      else if n = 0x3 then .xorReg x y else if n = 0x4 then .addReg x y else if n = 0x5 then .sub x y
      else if n = 0x6 then .shr x y else if n = 0x7 then .subn x y else if n = 0xE then .shl x y
      else .nop8 (BitVec.ofNat 4 x.val) (BitVec.ofNat 4 y.val) n := by
  obtain ⟨hc, hx, hy, hn⟩ :=
    fields_of_xyn _ (packXYN_toNat (c := 0x8) (by decide) x.isLt y.isLt n.isLt) x.isLt y.isLt n.isLt
  rw [nibble_ofNat_toNat] at hn
  rw [decode_of_class8 hc, decodeClass8_eq, hx, hy, hn, regOf_ofNat_val, regOf_ofNat_val]
  rfl

theorem decode_packXNN_classE (x : Reg) (nn : Byte) :
    decode (packXNN 0xE x.val nn) =
      if nn = 0x9E then .skp x else if nn = 0xA1 then .sknp x else .nopE (BitVec.ofNat 4 x.val) nn := by
  obtain ⟨hc, hx, hnn⟩ := fields_of_xnn nn _ (packXNN_toNat (c := 0xE) nn (by decide) x.isLt) x.isLt
  rw [decode_of_classE hc, decodeClassE_eq, hx, hnn, regOf_ofNat_val]
  rfl

theorem decode_packXNN_classF (x : Reg) (nn : Byte) :
    decode (packXNN 0xF x.val nn) =
      if nn = 0x07 then .ldVDt x else if nn = 0x0A then .ldVK x else if nn = 0x15 then .ldDtV x
      else if nn = 0x18 then .ldStV x else if nn = 0x1E then .addI x else if nn = 0x29 then .ldF x
      else if nn = 0x33 then .ldB x else if nn = 0x55 then .ldMemV x else if nn = 0x65 then .ldVMem x
      else .nopF (BitVec.ofNat 4 x.val) nn := by
  obtain ⟨hc, hx, hnn⟩ := fields_of_xnn nn _ (packXNN_toNat (c := 0xF) nn (by decide) x.isLt) x.isLt
  rw [decode_of_classF hc, decodeClassF_eq, hx, hnn, regOf_ofNat_val]
  rfl

/-- Settles O3, class by class: the statement's word is the packed word, in which `256 * x` stands for `x * 256`. -/
theorem subCodesSelect : Obligations.SubCodesSelect := by
  refine ⟨fun x y n => ?_, fun x nn => ?_, fun x nn => ?_⟩
  · rw [Nat.mul_comm 256, Nat.mul_comm 16]
    exact decode_packXYN_class8 x y n
  · rw [Nat.mul_comm 256]
    exact decode_packXNN_classE x nn
  · rw [Nat.mul_comm 256]
    exact decode_packXNN_classF x nn

end Sys2Proof
end

section
/-! PROOFS. The step-cycle family (spec/40_step_cycle.md): a step on a no-op word, and the provisional PC that every
instruction runs with. -/

namespace Sys2Proof

/-! ### A field's value as a condition on the number of the word (R46) -/

theorem fieldC_eq_iff (op : Word) (c : Nibble) : fieldC op = c ↔ op.toNat / 4096 = c.toNat := by
  rw [← BitVec.toNat_inj, fieldC_toNat]
  omega

theorem fieldN_eq_iff (op : Word) (n : Nibble) : fieldN op = n ↔ op.toNat % 16 = n.toNat := by
  rw [← BitVec.toNat_inj, fieldN_toNat]

theorem fieldNN_eq_iff (op : Word) (nn : Byte) : fieldNN op = nn ↔ op.toNat % 256 = nn.toNat := by
  rw [← BitVec.toNat_inj, fieldNN_toNat]

/-! ### The words that are no-ops (R65) -/

theorem decode_of_class0 {op : Word} (h : fieldC op = 0x0#4) : decode op = decodeClass0 op := by
  rw [decode_eq, h]
  rfl

theorem decode_eq_sys {op : Word} (hc : op.toNat / 4096 = 0x0) (hnn : op.toNat % 256 ∉ [0xE0, 0xEE]) :
    decode op = .sys (fieldNNN op) := by
  rw [decode_of_class0 ((fieldC_eq_iff op 0x0).2 hc), decodeClass0_eq]
  simp only [List.mem_cons, List.not_mem_nil, or_false, not_or] at hnn
  simp [fieldNN_eq_iff, hnn]

/-- The list is of the sub-codes that are no-ops, so each of them is compared with the nine instructions'. -/
theorem decode_eq_nop8 {op : Word} (hc : op.toNat / 4096 = 0x8)
    (hn : op.toNat % 16 ∈ [0x8, 0x9, 0xA, 0xB, 0xC, 0xD, 0xF]) :
    decode op = .nop8 (fieldX op) (fieldY op) (fieldN op) := by
  rw [decode_of_class8 ((fieldC_eq_iff op 0x8).2 hc), decodeClass8_eq]
  simp only [List.mem_cons, List.not_mem_nil, or_false] at hn
  rcases hn with hn | hn | hn | hn | hn | hn | hn <;> simp [fieldN_eq_iff, hn]

theorem decode_eq_nopE {op : Word} (hc : op.toNat / 4096 = 0xE) (hnn : op.toNat % 256 ∉ [0x9E, 0xA1]) :
    decode op = .nopE (fieldX op) (fieldNN op) := by
  rw [decode_of_classE ((fieldC_eq_iff op 0xE).2 hc), decodeClassE_eq]
  simp only [List.mem_cons, List.not_mem_nil, or_false, not_or] at hnn
  simp [fieldNN_eq_iff, hnn]

theorem decode_eq_nopF {op : Word} (hc : op.toNat / 4096 = 0xF)
    (hnn : op.toNat % 256 ∉ [0x07, 0x0A, 0x15, 0x18, 0x1E, 0x29, 0x33, 0x55, 0x65]) :
    decode op = .nopF (fieldX op) (fieldNN op) := by
  rw [decode_of_classF ((fieldC_eq_iff op 0xF).2 hc), decodeClassF_eq]
  simp only [List.mem_cons, List.not_mem_nil, or_false, not_or] at hnn
  simp [fieldNN_eq_iff, hnn]

namespace Machine

/-! ### A step on a no-op word -/

theorem exec_sys (nnn : Addr12) (s : State) : exec (.sys nnn) s = .next s.advance := rfl

theorem exec_nop8 (x y n : Nibble) (s : State) : exec (.nop8 x y n) s = .next s.advance := rfl

theorem exec_nopE (x : Nibble) (nn : Byte) (s : State) : exec (.nopE x nn) s = .next s.advance := rfl

theorem exec_nopF (x : Nibble) (nn : Byte) (s : State) : exec (.nopF x nn) s = .next s.advance := rfl

/-- A step whose instruction commits ends with the timer tick (R66). -/
theorem step_of_exec_commits {s t : State} (hs : s.ready) (h : exec (decode s.fetchWord) s = .next t)
    (ht : t.faultCode = 0) : step s = .next t.tick := by
  rw [step_of_ready s hs, finishStep_eq_next]
  exact ⟨t, h, (if_pos ht).symm⟩

/-- Settles O11, class by class: the word decodes to the class's no-op, whose only effect is the advance, and the step
ends with the tick. -/
theorem noOpStepOnlyAdvancesAndTicks : Obligations.NoOpStepOnlyAdvancesAndTicks := by
  intro s hs hop
  rw [← fetchWord_toNat] at hop
  have hexec : exec (decode s.fetchWord) s = .next s.advance := by
    obtain ⟨hc, hn⟩ | ⟨hc, hn⟩ | ⟨hc, hn⟩ | ⟨hc, hn⟩ := hop
    · rw [decode_eq_sys hc hn, exec_sys]
    · rw [decode_eq_nop8 hc hn, exec_nop8]
    · rw [decode_eq_nopE hc hn, exec_nopE]
    · rw [decode_eq_nopF hc hn, exec_nopF]
  exact step_of_exec_commits hs hexec hs.1

/-! ### What an instruction that can fault does when it commits -/

theorem takeFault_faultCode_ne_zero (s : State) (c : Cause) (info op : Word) :
    (s.takeFault c info op).faultCode ≠ 0 :=
  (causeCode_range c).1

/-- An inversion lemma's alternatives leave only the committed one where no fault is latched. -/
theorem commits_of_fault_or {p q : Prop} {s t : State} {c : Cause} {info op : Word}
    (h : (p ∧ t = s.takeFault c info op) ∨ q) (ht : t.faultCode = 0) : q := by
  obtain ⟨-, rfl⟩ | hq := h
  · exact absurd ht (takeFault_faultCode_ne_zero s c info op)
  · exact hq

/-- CALL that commits pushed the provisional PC and jumped (R70). -/
theorem exec_call_commits {nnn : Addr12} {s t : State} (h : exec (.call nnn) s = .next t) (ht : t.faultCode = 0) :
    ∃ hsp : s.sp.toNat < 16,
      t = { s with stack := s.stack.set s.sp.toNat (s.pc + 2), sp := s.sp + 1, pc := zext16 nnn } := by
  obtain ⟨-, u, hu, rfl⟩ := commits_of_fault_or ((exec_call_next nnn s t).1 h) ht
  obtain ⟨hsp, rfl⟩ := (pushReturn_eq_some _ _).1 hu
  exact ⟨hsp, rfl⟩

/-- SP - 1 does not wrap where SP is not 0. -/
theorem sp_sub_one_toNat {s : State} (h : s.sp ≠ 0) : (s.sp - 1).toNat = s.sp.toNat - 1 := by
  bv_omega

/-- RET that commits popped (R69). -/
theorem exec_ret_commits {x : Nibble} {s t : State} (h : exec (.ret x) s = .next t) (ht : t.faultCode = 0) :
    ∃ hsp : s.sp.toNat - 1 < 16, t = { s with sp := s.sp - 1, pc := s.stack[s.sp.toNat - 1] } := by
  obtain ⟨hsp, hpop⟩ := commits_of_fault_or ((exec_ret_next x s t).1 h) ht
  obtain ⟨hlt, rfl⟩ := (popReturn_eq_some _ _).1 hpop
  have hsub : (s.advance.sp - 1).toNat = s.sp.toNat - 1 := sp_sub_one_toNat hsp
  exact ⟨hsub ▸ hlt, by simp only [hsub]; rfl⟩

/-! ### The provisional PC (R61) -/

theorem zext16_toNat (nnn : Addr12) : (zext16 nnn).toNat = nnn.toNat := by
  rw [zext16, BitVec.toNat_setWidth]
  omega

theorem byteToWord_toNat (b : Byte) : (byteToWord b).toNat = b.toNat := by
  rw [byteToWord, BitVec.toNat_setWidth]
  omega

/-- The sum of a byte and a 12-bit address does not wrap in 16 bits (R76). -/
theorem byteToWord_add_zext16_toNat (b : Byte) (nnn : Addr12) :
    (byteToWord b + zext16 nnn).toNat = b.toNat + nnn.toNat := by
  rw [BitVec.toNat_add, byteToWord_toNat, zext16_toNat]
  omega

theorem pc_advance_skipIf (s : State) (c : Bool) :
    (s.advance.skipIf c).pc = s.pc + 2 ∨ (s.advance.skipIf c).pc = s.pc + 2 + 2 := by
  cases c
  · exact .inl rfl
  · exact .inr rfl

/-- Settles O13, instruction by instruction: what the meaning answers when it commits shows where it put PC. -/
theorem provisionalPc : Obligations.ProvisionalPc := by
  intro i s t _ h ht
  cases i with
  | jp nnn =>
    obtain rfl := Host.Outcome.next.inj h
    exact zext16_toNat nnn
  | jpV0 nnn =>
    obtain rfl := Host.Outcome.next.inj h
    exact byteToWord_add_zext16_toNat _ nnn
  | call nnn =>
    obtain ⟨_, rfl⟩ := exec_call_commits h ht
    exact ⟨zext16_toNat nnn, fun hsp => Vector.getElem_set_self hsp⟩
  | ret x =>
    obtain ⟨_, rfl⟩ := exec_ret_commits h ht
    exact fun _ => rfl
  | seImm | sneImm | seReg | sneReg =>
    obtain rfl := Host.Outcome.next.inj h
    exact pc_advance_skipIf s _
  | skp x =>
    obtain ⟨_, rfl⟩ := commits_of_fault_or ((exec_skp_next x s t).1 h) ht
    exact pc_advance_skipIf s _
  | sknp x =>
    obtain ⟨_, rfl⟩ := commits_of_fault_or ((exec_sknp_next x s t).1 h) ht
    exact pc_advance_skipIf s _
  | drw x y n =>
    obtain ⟨-, rfl⟩ := commits_of_fault_or ((exec_drw_next x y n s t).1 h) ht
    rfl
  | ldB x =>
    obtain ⟨-, rfl⟩ := commits_of_fault_or ((exec_ldB_next x s t).1 h) ht
    rfl
  | ldMemV x =>
    obtain ⟨-, rfl⟩ := commits_of_fault_or ((exec_ldMemV_next x s t).1 h) ht
    rfl
  | ldVMem x =>
    obtain ⟨-, rfl⟩ := commits_of_fault_or ((exec_ldVMem_next x s t).1 h) ht
    rfl
  | ldVK x =>
    obtain ⟨_, rfl⟩ := commits_of_fault_or ((exec_ldVK_next x s t).1 h) ht
    rfl
  | cls | ldImm | addImm | ldReg | orReg | andReg | xorReg | addReg | sub | shr | subn | shl | ldI | rnd | ldVDt | ldDtV
  | ldStV | addI | ldF | sys | nop8 | nopE | nopF =>
    obtain rfl := Host.Outcome.next.inj h
    rfl

end Machine
end Sys2Proof
end

section
/-! PROOFS. The control-flow family (spec/41_flow.md): the skips on an immediate and on two registers. -/

namespace Sys2Proof

/-! ### The operands of a packed word whose X and Y name registers (R46, R48) -/

theorem operands_packXNN {c : Nat} (hc : c < 16) (x : Reg) (nn : Byte) :
    fieldC (packXNN c x.val nn) = BitVec.ofNat 4 c ∧ regOf (fieldX (packXNN c x.val nn)) = x ∧
      fieldNN (packXNN c x.val nn) = nn := by
  obtain ⟨hC, hX, hNN⟩ := fields_of_xnn nn _ (packXNN_toNat nn hc x.isLt) x.isLt
  exact ⟨hC, hX ▸ regOf_ofNat_val x, hNN⟩

theorem operands_packXYN {c : Nat} (hc : c < 16) (x y : Reg) (n : Nibble) :
    fieldC (packXYN c x.val y.val n.toNat) = BitVec.ofNat 4 c ∧ regOf (fieldX (packXYN c x.val y.val n.toNat)) = x ∧
      regOf (fieldY (packXYN c x.val y.val n.toNat)) = y ∧ fieldN (packXYN c x.val y.val n.toNat) = n := by
  obtain ⟨hC, hX, hY, hN⟩ := fields_of_xyn _ (packXYN_toNat hc x.isLt y.isLt n.isLt) x.isLt y.isLt n.isLt
  exact ⟨hC, hX ▸ regOf_ofNat_val x, hY ▸ regOf_ofNat_val y, hN.trans (nibble_ofNat_toNat n)⟩

/-! ### The words of the skips (R49, R51) -/

theorem decode_packXNN_class3 (x : Reg) (nn : Byte) : decode (packXNN 0x3 x.val nn) = .seImm x nn := by
  obtain ⟨hc, hx, hnn⟩ := operands_packXNN (c := 0x3) (by decide) x nn
  rw [decode_eq, hc, hx, hnn]
  rfl

theorem decode_packXNN_class4 (x : Reg) (nn : Byte) : decode (packXNN 0x4 x.val nn) = .sneImm x nn := by
  obtain ⟨hc, hx, hnn⟩ := operands_packXNN (c := 0x4) (by decide) x nn
  rw [decode_eq, hc, hx, hnn]
  rfl

theorem decode_packXYN_class5 (x y : Reg) (n : Nibble) :
    decode (packXYN 0x5 x.val y.val n.toNat) = .seReg x y n := by
  obtain ⟨hc, hx, hy, hn⟩ := operands_packXYN (c := 0x5) (by decide) x y n
  rw [decode_eq, hc, hx, hy, hn]
  rfl

theorem decode_packXYN_class9 (x y : Reg) (n : Nibble) :
    decode (packXYN 0x9 x.val y.val n.toNat) = .sneReg x y n := by
  obtain ⟨hc, hx, hy, hn⟩ := operands_packXYN (c := 0x9) (by decide) x y n
  rw [decode_eq, hc, hx, hy, hn]
  rfl

namespace Machine

/-! ### A skip as one write of PC (R71) -/

/-- The skip adds its 2 to the provisional PC, so from pc0 it is one addition of 4. -/
theorem advance_skipIf (s : State) (c : Bool) :
    s.advance.skipIf c = { s with pc := if c = true then s.pc + 4 else s.pc + 2 } := by
  cases c with
  | false => rfl
  | true => exact congrArg s.setPc (BitVec.add_assoc s.pc 2 2)

theorem advance_skipIf_beq (s : State) (a b : Byte) :
    s.advance.skipIf (a == b) = { s with pc := if a = b then s.pc + 4 else s.pc + 2 } := by
  simp only [advance_skipIf, beq_iff_eq]

theorem advance_skipIf_bne (s : State) (a b : Byte) :
    s.advance.skipIf (a != b) = { s with pc := if a = b then s.pc + 2 else s.pc + 4 } := by
  simp only [advance_skipIf, bne_iff_ne, ite_not]

/-! ### The four skips on registers and immediates (R72–R75) -/

theorem exec_seImm (x : Reg) (nn : Byte) (s : State) :
    exec (.seImm x nn) s = .next { s with pc := if s.reg x = nn then s.pc + 4 else s.pc + 2 } :=
  congrArg Host.Outcome.next (advance_skipIf_beq s _ _)

theorem exec_sneImm (x : Reg) (nn : Byte) (s : State) :
    exec (.sneImm x nn) s = .next { s with pc := if s.reg x = nn then s.pc + 2 else s.pc + 4 } :=
  congrArg Host.Outcome.next (advance_skipIf_bne s _ _)

theorem exec_seReg (x y : Reg) (n : Nibble) (s : State) :
    exec (.seReg x y n) s = .next { s with pc := if s.reg x = s.reg y then s.pc + 4 else s.pc + 2 } :=
  congrArg Host.Outcome.next (advance_skipIf_beq s _ _)

theorem exec_sneReg (x y : Reg) (n : Nibble) (s : State) :
    exec (.sneReg x y n) s = .next { s with pc := if s.reg x = s.reg y then s.pc + 2 else s.pc + 4 } :=
  congrArg Host.Outcome.next (advance_skipIf_bne s _ _)

/-- Settles O17: the statement's words are the packed words of the classes 3 and 4, and each meaning is the skip on its
comparison. -/
theorem skipsOnImmediate : Obligations.SkipsOnImmediate := by
  intro x nn s
  rw [Nat.mul_comm 256]
  exact ⟨decode_packXNN_class3 x nn, decode_packXNN_class4 x nn, exec_seImm x nn s, exec_sneImm x nn s⟩

/-- Settles O18: as for the immediates, with the classes 5 and 9; where X = Y the comparison is of a register with
itself. -/
theorem skipsOnRegisters : Obligations.SkipsOnRegisters := by
  intro x y n s
  have hse : exec (.seReg x x n) s = .next { s with pc := s.pc + 4 } := by
    rw [exec_seReg, if_pos rfl]
  have hsne : exec (.sneReg x x n) s = .next { s with pc := s.pc + 2 } := by
    rw [exec_sneReg, if_pos rfl]
  rw [Nat.mul_comm 256, Nat.mul_comm 16]
  exact ⟨decode_packXYN_class5 x y n, decode_packXYN_class9 x y n, exec_seReg x y n s, exec_sneReg x y n s, hse, hsne⟩

end Machine
end Sys2Proof
end

section
/-! PROOFS. The arithmetic and logic family (spec/42_alu.md): the instructions that write V[x] and no flag. -/

namespace Sys2Proof

/-! ### The words of the classes 0x6 and 0x7, and of class 0x8 by its sub-code (R49, R52) -/

theorem decode_packXNN_class6 (x : Reg) (nn : Byte) : decode (packXNN 0x6 x.val nn) = .ldImm x nn := by
  obtain ⟨hc, hx, hnn⟩ := operands_packXNN (c := 0x6) (by decide) x nn
  rw [decode_eq, hc, hx, hnn]
  rfl

theorem decode_packXNN_class7 (x : Reg) (nn : Byte) : decode (packXNN 0x7 x.val nn) = .addImm x nn := by
  obtain ⟨hc, hx, hnn⟩ := operands_packXNN (c := 0x7) (by decide) x nn
  rw [decode_eq, hc, hx, hnn]
  rfl

/-- A class 0x8 word written with its sub-code in the constant (as in 0x8001) is the packed word. -/
theorem ofNat_class8_eq_packXYN (x y : Reg) (n : Nibble) :
    BitVec.ofNat 16 (0x8000 + n.toNat + 256 * x.val + 16 * y.val) = packXYN 0x8 x.val y.val n.toNat := by
  unfold packXYN
  congr 1
  omega

theorem decode_ldReg_word (x y : Reg) : decode (BitVec.ofNat 16 (0x8000 + 256 * x.val + 16 * y.val)) = .ldReg x y :=
  (congrArg decode (ofNat_class8_eq_packXYN x y 0)).trans (decode_packXYN_class8 x y 0)

theorem decode_orReg_word (x y : Reg) : decode (BitVec.ofNat 16 (0x8001 + 256 * x.val + 16 * y.val)) = .orReg x y :=
  (congrArg decode (ofNat_class8_eq_packXYN x y 1)).trans (decode_packXYN_class8 x y 1)

theorem decode_andReg_word (x y : Reg) : decode (BitVec.ofNat 16 (0x8002 + 256 * x.val + 16 * y.val)) = .andReg x y :=
  (congrArg decode (ofNat_class8_eq_packXYN x y 2)).trans (decode_packXYN_class8 x y 2)

theorem decode_xorReg_word (x y : Reg) : decode (BitVec.ofNat 16 (0x8003 + 256 * x.val + 16 * y.val)) = .xorReg x y :=
  (congrArg decode (ofNat_class8_eq_packXYN x y 3)).trans (decode_packXYN_class8 x y 3)

namespace Machine

/-! ### The six meanings as one register write after the advance (R77–R82) -/

theorem exec_ldImm (x : Reg) (nn : Byte) (s : State) : exec (.ldImm x nn) s = .next (s.advance.setReg x nn) := rfl

theorem exec_addImm (x : Reg) (nn : Byte) (s : State) :
    exec (.addImm x nn) s = .next (s.advance.setReg x (s.reg x + nn)) := rfl

theorem exec_ldReg (x y : Reg) (s : State) : exec (.ldReg x y) s = .next (s.advance.setReg x (s.reg y)) := rfl

theorem exec_orReg (x y : Reg) (s : State) :
    exec (.orReg x y) s = .next (s.advance.setReg x (s.reg x ||| s.reg y)) := rfl

theorem exec_andReg (x y : Reg) (s : State) :
    exec (.andReg x y) s = .next (s.advance.setReg x (s.reg x &&& s.reg y)) := rfl

theorem exec_xorReg (x y : Reg) (s : State) :
    exec (.xorReg x y) s = .next (s.advance.setReg x (s.reg x ^^^ s.reg y)) := rfl

/-- VF is one of the registers that keep their value, unless it is the destination. -/
theorem advance_setReg_frame (s : State) (x : Reg) (b : Byte) :
    (∀ k, k ≠ x → (s.advance.setReg x b).reg k = s.reg k) ∧
      { s.advance.setReg x b with v := s.v } = { s with pc := s.pc + 2 } :=
  ⟨fun k hk => by rw [reg_setReg_of_ne _ _ _ _ hk, reg_advance], rfl⟩

/-- Settles O23: each meaning is one write of V[x] after the advance, and the byte's addition is the sum modulo 256. -/
theorem immediateLoadAndAdd : Obligations.ImmediateLoadAndAdd := by
  intro x nn s
  rw [Nat.mul_comm 256]
  refine ⟨decode_packXNN_class6 x nn, decode_packXNN_class7 x nn, ?ld, ?add⟩
  case ld => exact ⟨_, exec_ldImm x nn s, reg_setReg_self _ _ _, advance_setReg_frame s x _⟩
  case add =>
    refine ⟨_, exec_addImm x nn s, ?_, advance_setReg_frame s x _⟩
    rw [reg_setReg_self, BitVec.toNat_add]

/-- Settles O24: as for the immediates; both operands are read before the write, so X = Y is no case of its own, and the
result is read bit by bit. -/
theorem copyAndLogic : Obligations.CopyAndLogic := by
  intro x y s
  refine ⟨decode_ldReg_word x y, decode_orReg_word x y, decode_andReg_word x y, decode_xorReg_word x y,
    ?ld, ?or, ?and, ?xor⟩
  case ld => exact ⟨_, exec_ldReg x y s, reg_setReg_self _ _ _, advance_setReg_frame s x _⟩
  case or =>
    refine ⟨_, exec_orReg x y s, fun b => ?_, advance_setReg_frame s x _⟩
    rw [reg_setReg_self, BitVec.getLsbD_or]
  case and =>
    refine ⟨_, exec_andReg x y s, fun b => ?_, advance_setReg_frame s x _⟩
    rw [reg_setReg_self, BitVec.getLsbD_and]
  case xor =>
    refine ⟨_, exec_xorReg x y s, fun b => ?_, advance_setReg_frame s x _⟩
    rw [reg_setReg_self, BitVec.getLsbD_xor]

end Machine
end Sys2Proof
end

section
/-! PROOFS. The index-register and memory family (spec/43_index_memory.md): the instructions that write I. -/

namespace Sys2Proof

/-! ### The word of class 0xA, and of class 0xF by its sub-code (R49, R54) -/

theorem decode_packNNN_classA (nnn : Addr12) : decode (packNNN 0xA nnn) = .ldI nnn := by
  obtain ⟨hc, -, hnnn⟩ := fields_of_nnn nnn _ (packNNN_toNat (c := 0xA) nnn (by decide))
  rw [decode_eq, hc, hnnn]
  rfl

/-- A class 0xF word written with its sub-code in the constant (as in 0xF01E) is the packed word. -/
theorem ofNat_classF_eq_packXNN (x : Reg) (nn : Byte) :
    BitVec.ofNat 16 (0xF000 + nn.toNat + 256 * x.val) = packXNN 0xF x.val nn := by
  unfold packXNN
  congr 1
  omega

theorem decode_addI_word (x : Reg) : decode (BitVec.ofNat 16 (0xF01E + 256 * x.val)) = .addI x :=
  (congrArg decode (ofNat_classF_eq_packXNN x 0x1E)).trans (decode_packXNN_classF x 0x1E)

theorem decode_ldF_word (x : Reg) : decode (BitVec.ofNat 16 (0xF029 + 256 * x.val)) = .ldF x :=
  (congrArg decode (ofNat_classF_eq_packXNN x 0x29)).trans (decode_packXNN_classF x 0x29)

namespace Machine

/-! ### The three meanings as one write of I after the advance (R91–R93) -/

theorem exec_ldI (nnn : Addr12) (s : State) : exec (.ldI nnn) s = .next (s.advance.setI (zext16 nnn)) := rfl

theorem exec_addI (x : Reg) (s : State) :
    exec (.addI x) s = .next (s.advance.setI (s.i + byteToWord (s.reg x))) := rfl

theorem exec_ldF (x : Reg) (s : State) : exec (.ldF x) s = .next (s.advance.setI (glyphAddr (s.reg x))) := rfl

theorem advance_setI_frame (s : State) (a : Word) : { s.advance.setI a with i := s.i } = { s with pc := s.pc + 2 } :=
  rfl

/-- Five times a byte does not wrap in 16 bits (R93). -/
theorem glyphAddr_toNat (b : Byte) : (glyphAddr b).toNat = b.toNat * 5 := by
  rw [glyphAddr, Config.glyphBytes, BitVec.toNat_ofNat]
  omega

/-- Settles O29: each meaning is one write of I after the advance; NNN and the glyph address fit in 16 bits, and only the
sum of ADD I is reduced, modulo 65536. -/
theorem indexRegisterWrites : Obligations.IndexRegisterWrites := by
  intro nnn x s
  refine ⟨decode_packNNN_classA nnn, decode_addI_word x, decode_ldF_word x, ?ldI, ?addI, ?ldF⟩
  case ldI =>
    refine ⟨_, exec_ldI nnn s, ?_, advance_setI_frame s _⟩
    rw [setI_i, zext16_toNat]
  case addI =>
    refine ⟨_, exec_addI x s, ?_, advance_setI_frame s _⟩
    rw [setI_i, BitVec.toNat_add, byteToWord_toNat]
  case ldF =>
    refine ⟨_, exec_ldF x s, ?_, advance_setI_frame s _⟩
    rw [setI_i, glyphAddr_toNat]

end Machine
end Sys2Proof
end

section
/-! PROOFS. The keypad and timer family (spec/45_keys_timers.md): the instructions that read and write the timers, and
what the tick of a committed step leaves in them. -/

namespace Sys2Proof

/-! ### The words of the timer instructions (R54) -/

theorem decode_ldVDt_word (x : Reg) : decode (BitVec.ofNat 16 (0xF007 + 256 * x.val)) = .ldVDt x :=
  (congrArg decode (ofNat_classF_eq_packXNN x 0x07)).trans (decode_packXNN_classF x 0x07)

theorem decode_ldDtV_word (x : Reg) : decode (BitVec.ofNat 16 (0xF015 + 256 * x.val)) = .ldDtV x :=
  (congrArg decode (ofNat_classF_eq_packXNN x 0x15)).trans (decode_packXNN_classF x 0x15)

theorem decode_ldStV_word (x : Reg) : decode (BitVec.ofNat 16 (0xF018 + 256 * x.val)) = .ldStV x :=
  (congrArg decode (ofNat_classF_eq_packXNN x 0x18)).trans (decode_packXNN_classF x 0x18)

namespace Machine

/-! ### The three meanings as one write after the advance (R107, R109, R110) -/

theorem exec_ldVDt (x : Reg) (s : State) : exec (.ldVDt x) s = .next (s.advance.setReg x s.dt) := rfl

theorem exec_ldDtV (x : Reg) (s : State) : exec (.ldDtV x) s = .next (s.advance.setDt (s.reg x)) := rfl

theorem exec_ldStV (x : Reg) (s : State) : exec (.ldStV x) s = .next (s.advance.setSt (s.reg x)) := rfl

/-! ### The tick and SOUND as facts about numbers (R24, R121) -/

/-- The subtraction of natural numbers stops at 0, as the tick does. -/
theorem tickDown_toNat (b : Byte) : (tickDown b).toNat = b.toNat - 1 := by
  unfold tickDown
  split_ifs with h
  · rw [h]
    rfl
  · bv_omega

theorem sound_eq_true_iff (s : State) : s.sound = true ↔ s.st ≠ 0 := by
  rw [State.sound, bne_iff_ne]

theorem sound_eq_false_iff (s : State) : s.sound = false ↔ s.st = 0 := by
  rw [State.sound, bne_eq_false_iff_eq]

/-! ### A committed step, from its opcode and from its outcome (R59, R66) -/

/-- A step of a running core on a known opcode whose instruction commits. -/
theorem step_of_opcode_commits {s t : State} {n : Nat} {i : Instr} (hs : s.ready) (hop : s.opcodeAtPc = n)
    (hi : decode (BitVec.ofNat 16 n) = i) (h : exec i s = .next t) (ht : t.faultCode = 0) : step s = .next t.tick := by
  have hword : s.fetchWord = BitVec.ofNat 16 n := by
    rw [← hop, ← fetchWord_toNat, BitVec.ofNat_toNat, BitVec.setWidth_eq]
  exact step_of_exec_commits hs (by rw [hword, hi, h]) ht

/-- A step that leaves no fault latched ran an instruction that committed, and then ticked. -/
theorem exec_of_step_commits {s t : State} (h : step s = .next t) (ht : t.faultCode = 0) :
    ∃ u, exec (decode s.fetchWord) s = .next u ∧ t = u.tick := by
  obtain ⟨hs, rfl⟩ | ⟨-, -, rfl⟩ | ⟨-, u, hu, rfl⟩ := (step_eq_next s t).1 h
  · exact absurd ht hs
  · exact absurd ht (takeFault_faultCode_ne_zero s _ _ _)
  · by_cases hc : u.faultCode = 0
    · exact ⟨u, hu, if_pos hc⟩
    · rw [if_neg hc] at ht
      exact absurd ht hc

/-! ### FX18 is the only instruction that writes ST (R110) -/

theorem exec_next_st {i : Instr} {s t : State} (hi : ∀ y, i ≠ .ldStV y) (h : exec i s = .next t) : t.st = s.st := by
  cases i with
  | ldStV y => exact absurd rfl (hi y)
  | ret x =>
    obtain ⟨-, rfl⟩ | ⟨-, hpop⟩ := (exec_ret_next x s t).1 h
    · rfl
    · obtain ⟨-, rfl⟩ := (popReturn_eq_some _ _).1 hpop
      rfl
  | call nnn =>
    obtain ⟨-, rfl⟩ | ⟨-, u, hpush, rfl⟩ := (exec_call_next nnn s t).1 h
    · rfl
    · obtain ⟨-, rfl⟩ := (pushReturn_eq_some _ _).1 hpush
      rfl
  | drw x y n => obtain ⟨-, rfl⟩ | ⟨-, rfl⟩ := (exec_drw_next x y n s t).1 h <;> rfl
  | ldB x => obtain ⟨-, rfl⟩ | ⟨-, rfl⟩ := (exec_ldB_next x s t).1 h <;> rfl
  | ldMemV x => obtain ⟨-, rfl⟩ | ⟨-, rfl⟩ := (exec_ldMemV_next x s t).1 h <;> rfl
  | ldVMem x => obtain ⟨-, rfl⟩ | ⟨-, rfl⟩ := (exec_ldVMem_next x s t).1 h <;> rfl
  | ldVK x => obtain ⟨-, rfl⟩ | ⟨-, rfl⟩ := (exec_ldVK_next x s t).1 h <;> rfl
  | skp x =>
    obtain ⟨-, rfl⟩ | ⟨_, rfl⟩ := (exec_skp_next x s t).1 h
    · rfl
    · exact skipIf_st s.advance _
  | sknp x =>
    obtain ⟨-, rfl⟩ | ⟨_, rfl⟩ := (exec_sknp_next x s t).1 h
    · rfl
    · exact skipIf_st s.advance _
  | seImm | sneImm | seReg | sneReg =>
    obtain rfl := Host.Outcome.next.inj h
    exact skipIf_st s.advance _
  | cls | jp | ldImm | addImm | ldReg | orReg | andReg | xorReg | addReg | sub | shr | subn | shl | ldI | jpV0 | rnd
  | ldVDt | ldDtV | addI | ldF | sys | nop8 | nopE | nopF =>
    obtain rfl := Host.Outcome.next.inj h
    rfl

theorem st_of_step_commits {s t : State} (hi : ∀ y, decode s.fetchWord ≠ .ldStV y) (h : step s = .next t)
    (ht : t.faultCode = 0) : t.st = tickDown s.st := by
  obtain ⟨u, hu, rfl⟩ := exec_of_step_commits h ht
  rw [tick_st, exec_next_st hi hu]

/-- Settles O45: FX07 is one write of V[x] and FX15 one write of DT after the advance, and the step on either word ends
with the tick of the DT that the instruction left. -/
theorem delayTimerReadAndWritten : Obligations.DelayTimerReadAndWritten := by
  intro x s
  refine ⟨decode_ldVDt_word x, decode_ldDtV_word x, ?exec_read, exec_ldDtV x s, ?step_read, ?step_write⟩
  case exec_read => exact ⟨_, exec_ldVDt x s, reg_setReg_self _ _ _, advance_setReg_frame s x _⟩
  case step_read =>
    intro hs hop
    refine ⟨_, step_of_opcode_commits hs hop (decode_ldVDt_word x) (exec_ldVDt x s) hs.1, ?_, tickDown_toNat s.dt⟩
    rw [reg_tick, reg_setReg_self]
  case step_write =>
    intro hs hop
    exact ⟨_, step_of_opcode_commits hs hop (decode_ldDtV_word x) (exec_ldDtV x s) hs.1, tickDown_toNat (s.reg x)⟩

/-- Settles O46: the step on FX18 leaves ST at V[x] ticked once, and the next committed step that writes no ST leaves it
at V[x] ticked twice; two ticks take 2 through 1, which sounds, to 0. -/
theorem soundTimerWritten : Obligations.SoundTimerWritten := by
  intro x s
  refine ⟨decode_ldStV_word x, exec_ldStV x s, fun hs hop => ?_⟩
  have hstep : step s = .next (s.advance.setSt (s.reg x)).tick :=
    step_of_opcode_commits hs hop (decode_ldStV_word x) (exec_ldStV x s) hs.1
  have hst : (s.advance.setSt (s.reg x)).tick.st = tickDown (s.reg x) := rfl
  refine ⟨_, hstep, hs.1, hst ▸ tickDown_toNat (s.reg x), fun hone => ?_, fun htwo => ⟨?_, fun u _ hi hu hc => ?_⟩⟩
  · rw [sound_eq_false_iff, hst, hone]
    rfl
  · rw [sound_eq_true_iff, hst, htwo]
    decide
  · rw [sound_eq_false_iff, st_of_step_commits hi hu hc, hst, htwo]
    rfl

end Machine
end Sys2Proof
end

section
/-! PROOFS. The reset and hazards family (spec/70_reset_and_hazards.md): the font that RESET writes, and the LOAD that is
rejected. -/

namespace Sys2Proof.Machine

/-! ### The memory after RESET (R127, R128) -/

theorem hostReset_mem (font : Vector Byte 80) (s : State) :
    (hostReset font s).mem = State.reset.mem.writeBytes 0 font.toList := rfl

/-- The 80 bytes from address 0 on are the font that RESET was given. -/
theorem hostReset_mem_read (font : Vector Byte 80) (s : State) (a : Nat) (ha : a < 80) :
    (hostReset font s).mem.read a = font[a] := by
  have hlen : font.toList.length = 80 := font.length_toList
  have hfits : 0 + font.toList.length ≤ Config.memSize := by
    rw [hlen]
    decide
  have hin : 0 ≤ a ∧ a < 0 + font.toList.length := ⟨Nat.zero_le a, by omega⟩
  rw [hostReset_mem, read_writeBytes _ _ reset_mem_wf 0 a hfits, dif_pos hin]
  exact Vector.getElem_toList _

/-- Settles O51: byte k of glyph D is byte D*5 + k of the 80 bytes. -/
theorem resetWritesFont : Obligations.ResetWritesFont :=
  fun font s d k _ _ => hostReset_mem_read font s (d * 5 + k) (by omega)

/-! ### LOAD of a buffer longer than MAX_ROM (R131) -/

theorem hostLoad_of_gt {b : List Byte} (s : State) (h : 3584 < b.length) : hostLoad b s = (.rejected, s) :=
  if_neg (Nat.not_le.2 h)

/-- Settles O53: the rejected LOAD answers the state it was given, so the next step is the step from that state. -/
theorem loadTooLongRejected : Obligations.LoadTooLongRejected := by
  intro b s h
  rw [hostLoad_of_gt s h]
  exact ⟨rfl, rfl, rfl⟩

end Sys2Proof.Machine
end

section
/-! PROOFS. The encoding family, the round trips: decoding what the encoder writes, encoding what the decoder reads, and
the decoder held to the opcode table (spec/30_encoding.md R49–R55). -/

namespace Sys2Proof

/-! ### When a no-op is well-formed (R65) -/

theorem wf_sys_iff (nnn : Addr12) :
    (Instr.sys nnn).wf = true ↔ nnn.setWidth 8 ≠ 0xE0#8 ∧ nnn.setWidth 8 ≠ 0xEE#8 := by
  simp [Instr.wf, isClass0SubCode]

theorem wf_nop8_iff (x y n : Nibble) :
    (Instr.nop8 x y n).wf = true ↔ n ≠ 0x0 ∧ n ≠ 0x1 ∧ n ≠ 0x2 ∧ n ≠ 0x3 ∧ n ≠ 0x4 ∧ n ≠ 0x5 ∧ n ≠ 0x6 ∧
      n ≠ 0x7 ∧ n ≠ 0xE := by
  simp [Instr.wf, isClass8SubCode]

theorem wf_nopE_iff (x : Nibble) (nn : Byte) :
    (Instr.nopE x nn).wf = true ↔ nn ≠ 0x9E ∧ nn ≠ 0xA1 := by
  simp [Instr.wf, isClassESubCode]

theorem wf_nopF_iff (x : Nibble) (nn : Byte) :
    (Instr.nopF x nn).wf = true ↔ nn ≠ 0x07 ∧ nn ≠ 0x0A ∧ nn ≠ 0x15 ∧ nn ≠ 0x18 ∧ nn ≠ 0x1E ∧ nn ≠ 0x29 ∧
      nn ≠ 0x33 ∧ nn ≠ 0x55 ∧ nn ≠ 0x65 := by
  simp [Instr.wf, isClassFSubCode]

/-! ### The words of the remaining classes (R49) -/

theorem operands_packNNN {c : Nat} (hc : c < 16) (nnn : Addr12) :
    fieldC (packNNN c nnn) = BitVec.ofNat 4 c ∧ fieldNN (packNNN c nnn) = nnn.setWidth 8 ∧
      fieldNNN (packNNN c nnn) = nnn :=
  fields_of_nnn nnn _ (packNNN_toNat nnn hc)

theorem decode_packNNN_class1 (nnn : Addr12) : decode (packNNN 0x1 nnn) = .jp nnn := by
  obtain ⟨hc, -, hnnn⟩ := operands_packNNN (c := 0x1) (by decide) nnn
  rw [decode_eq, hc, hnnn]
  rfl

theorem decode_packNNN_class2 (nnn : Addr12) : decode (packNNN 0x2 nnn) = .call nnn := by
  obtain ⟨hc, -, hnnn⟩ := operands_packNNN (c := 0x2) (by decide) nnn
  rw [decode_eq, hc, hnnn]
  rfl

theorem decode_packNNN_classB (nnn : Addr12) : decode (packNNN 0xB nnn) = .jpV0 nnn := by
  obtain ⟨hc, -, hnnn⟩ := operands_packNNN (c := 0xB) (by decide) nnn
  rw [decode_eq, hc, hnnn]
  rfl

theorem decode_packXNN_classC (x : Reg) (nn : Byte) : decode (packXNN 0xC x.val nn) = .rnd x nn := by
  obtain ⟨hc, hx, hnn⟩ := operands_packXNN (c := 0xC) (by decide) x nn
  rw [decode_eq, hc, hx, hnn]
  rfl

theorem decode_packXYN_classD (x y : Reg) (n : Nibble) : decode (packXYN 0xD x.val y.val n.toNat) = .drw x y n := by
  obtain ⟨hc, hx, hy, hn⟩ := operands_packXYN (c := 0xD) (by decide) x y n
  rw [decode_eq, hc, hx, hy, hn]
  rfl

/-- Class 0x0 with a sub-code in NN (R50). -/
theorem decode_packXNN_class0 (x : Nibble) (nn : Byte) :
    decode (packXNN 0x0 x.toNat nn) =
      if nn = 0xE0 then .cls x else if nn = 0xEE then .ret x else .sys (fieldNNN (packXNN 0x0 x.toNat nn)) := by
  obtain ⟨hc, hx, hnn⟩ := fields_of_xnn nn _ (packXNN_toNat (c := 0x0) nn (by decide) x.isLt) x.isLt
  rw [nibble_ofNat_toNat] at hx
  rw [decode_of_class0 hc, decodeClass0_eq, hx, hnn]
  rfl

theorem decode_encode_sys {nnn : Addr12} (h : (Instr.sys nnn).wf = true) : decode (encode (.sys nnn)) = .sys nnn := by
  obtain ⟨hE0, hEE⟩ := (wf_sys_iff nnn).1 h
  obtain ⟨hc, hnn, hnnn⟩ := operands_packNNN (c := 0x0) (by decide) nnn
  rw [encode, decode_of_class0 hc, decodeClass0_eq, hnn, hnnn, if_neg hE0, if_neg hEE]

theorem decode_encode_nop8 {x y n : Nibble} (h : (Instr.nop8 x y n).wf = true) :
    decode (encode (.nop8 x y n)) = .nop8 x y n := by
  obtain ⟨h0, h1, h2, h3, h4, h5, h6, h7, hE⟩ := (wf_nop8_iff x y n).1 h
  refine (decode_packXYN_class8 (regOf x) (regOf y) n).trans ?_
  rw [if_neg h0, if_neg h1, if_neg h2, if_neg h3, if_neg h4, if_neg h5, if_neg h6, if_neg h7, if_neg hE, regOf_val,
    regOf_val, nibble_ofNat_toNat, nibble_ofNat_toNat]

theorem decode_encode_nopE {x : Nibble} {nn : Byte} (h : (Instr.nopE x nn).wf = true) :
    decode (encode (.nopE x nn)) = .nopE x nn := by
  obtain ⟨h9E, hA1⟩ := (wf_nopE_iff x nn).1 h
  refine (decode_packXNN_classE (regOf x) nn).trans ?_
  rw [if_neg h9E, if_neg hA1, regOf_val, nibble_ofNat_toNat]

theorem decode_encode_nopF {x : Nibble} {nn : Byte} (h : (Instr.nopF x nn).wf = true) :
    decode (encode (.nopF x nn)) = .nopF x nn := by
  obtain ⟨h07, h0A, h15, h18, h1E, h29, h33, h55, h65⟩ := (wf_nopF_iff x nn).1 h
  refine (decode_packXNN_classF (regOf x) nn).trans ?_
  rw [if_neg h07, if_neg h0A, if_neg h15, if_neg h18, if_neg h1E, if_neg h29, if_neg h33, if_neg h55, if_neg h65,
    regOf_val, nibble_ofNat_toNat]

/-- Settles O4, instruction by instruction: the word is its class's packed word, and the class's lemma reads it back; for
the four no-ops the well-formedness rules out every sub-code of an instruction. -/
theorem decodeOfEncode : Obligations.DecodeOfEncode := by
  intro i hwf
  cases i with
  | cls x => exact decode_packXNN_class0 x 0xE0
  | ret x => exact decode_packXNN_class0 x 0xEE
  | jp nnn => exact decode_packNNN_class1 nnn
  | call nnn => exact decode_packNNN_class2 nnn
  | seImm x nn => exact decode_packXNN_class3 x nn
  | sneImm x nn => exact decode_packXNN_class4 x nn
  | seReg x y n => exact decode_packXYN_class5 x y n
  | ldImm x nn => exact decode_packXNN_class6 x nn
  | addImm x nn => exact decode_packXNN_class7 x nn
  | ldReg x y => exact decode_packXYN_class8 x y 0x0
  | orReg x y => exact decode_packXYN_class8 x y 0x1
  | andReg x y => exact decode_packXYN_class8 x y 0x2
  | xorReg x y => exact decode_packXYN_class8 x y 0x3
  | addReg x y => exact decode_packXYN_class8 x y 0x4
  | sub x y => exact decode_packXYN_class8 x y 0x5
  | shr x y => exact decode_packXYN_class8 x y 0x6
  | subn x y => exact decode_packXYN_class8 x y 0x7
  | shl x y => exact decode_packXYN_class8 x y 0xE
  | sneReg x y n => exact decode_packXYN_class9 x y n
  | ldI nnn => exact decode_packNNN_classA nnn
  | jpV0 nnn => exact decode_packNNN_classB nnn
  | rnd x nn => exact decode_packXNN_classC x nn
  | drw x y n => exact decode_packXYN_classD x y n
  | skp x => exact decode_packXNN_classE x 0x9E
  | sknp x => exact decode_packXNN_classE x 0xA1
  | ldVDt x => exact decode_packXNN_classF x 0x07
  | ldVK x => exact decode_packXNN_classF x 0x0A
  | ldDtV x => exact decode_packXNN_classF x 0x15
  | ldStV x => exact decode_packXNN_classF x 0x18
  | addI x => exact decode_packXNN_classF x 0x1E
  | ldF x => exact decode_packXNN_classF x 0x29
  | ldB x => exact decode_packXNN_classF x 0x33
  | ldMemV x => exact decode_packXNN_classF x 0x55
  | ldVMem x => exact decode_packXNN_classF x 0x65
  | sys nnn => exact decode_encode_sys hwf
  | nop8 x y n => exact decode_encode_nop8 hwf
  | nopE x nn => exact decode_encode_nopE hwf
  | nopF x nn => exact decode_encode_nopF hwf

/-! ### A word packed again from its own fields (R46) -/

theorem packNNN_fields {op : Word} {c : Nat} (h : c < 16) (hc : fieldC op = BitVec.ofNat 4 c) :
    packNNN c (fieldNNN op) = op := by
  apply BitVec.eq_of_toNat_eq
  have hdiv := (fieldC_eq_iff op _).1 hc
  rw [BitVec.toNat_ofNat] at hdiv
  rw [packNNN_toNat _ h, fieldNNN_toNat]
  omega

theorem packXNN_fields {op : Word} {c : Nat} (h : c < 16) (hc : fieldC op = BitVec.ofNat 4 c) :
    packXNN c (fieldX op).toNat (fieldNN op) = op := by
  apply BitVec.eq_of_toNat_eq
  have hdiv := (fieldC_eq_iff op _).1 hc
  rw [BitVec.toNat_ofNat] at hdiv
  rw [packXNN_toNat _ h (fieldX op).isLt, fieldX_toNat, fieldNN_toNat]
  omega

theorem packXYN_fields {op : Word} {c : Nat} (h : c < 16) (hc : fieldC op = BitVec.ofNat 4 c) :
    packXYN c (fieldX op).toNat (fieldY op).toNat (fieldN op).toNat = op := by
  apply BitVec.eq_of_toNat_eq
  have hdiv := (fieldC_eq_iff op _).1 hc
  rw [BitVec.toNat_ofNat] at hdiv
  rw [packXYN_toNat h (fieldX op).isLt (fieldY op).isLt (fieldN op).isLt, fieldX_toNat, fieldY_toNat, fieldN_toNat]
  omega

/-! ### Encoding what a word decodes to -/

/-- The instruction is well-formed and its encoding is the word. -/
def Represents (i : Instr) (op : Word) : Prop := i.wf = true ∧ encode i = op

theorem fieldNNN_setWidth (op : Word) : (fieldNNN op).setWidth 8 = fieldNN op := by
  apply BitVec.eq_of_toNat_eq
  rw [BitVec.toNat_setWidth, fieldNNN_toNat, fieldNN_toNat]
  omega

theorem represents_decodeClass0 {op : Word} (hc : fieldC op = 0x0#4) : Represents (decodeClass0 op) op := by
  have hop := packXNN_fields (c := 0x0) (by decide) hc
  rw [decodeClass0_eq]
  split_ifs with hE0 hEE
  · rw [hE0] at hop
    exact ⟨rfl, hop⟩
  · rw [hEE] at hop
    exact ⟨rfl, hop⟩
  · exact ⟨(wf_sys_iff _).2 (fieldNNN_setWidth op ▸ ⟨hE0, hEE⟩), packNNN_fields (by decide) hc⟩

theorem represents_decodeClass8 {op : Word} (hc : fieldC op = 0x8#4) : Represents (decodeClass8 op) op := by
  have hop := packXYN_fields (c := 0x8) (by decide) hc
  rw [decodeClass8_eq]
  split_ifs with h0 h1 h2 h3 h4 h5 h6 h7 hE
  case neg => exact ⟨(wf_nop8_iff _ _ _).2 ⟨h0, h1, h2, h3, h4, h5, h6, h7, hE⟩, hop⟩
  all_goals
    rw [‹fieldN op = _›] at hop
    exact ⟨rfl, hop⟩

theorem represents_decodeClassE {op : Word} (hc : fieldC op = 0xE#4) : Represents (decodeClassE op) op := by
  have hop := packXNN_fields (c := 0xE) (by decide) hc
  rw [decodeClassE_eq]
  split_ifs with h9E hA1
  · rw [h9E] at hop
    exact ⟨rfl, hop⟩
  · rw [hA1] at hop
    exact ⟨rfl, hop⟩
  · exact ⟨(wf_nopE_iff _ _).2 ⟨h9E, hA1⟩, hop⟩

theorem represents_decodeClassF {op : Word} (hc : fieldC op = 0xF#4) : Represents (decodeClassF op) op := by
  have hop := packXNN_fields (c := 0xF) (by decide) hc
  rw [decodeClassF_eq]
  split_ifs with h07 h0A h15 h18 h1E h29 h33 h55 h65
  case neg => exact ⟨(wf_nopF_iff _ _).2 ⟨h07, h0A, h15, h18, h1E, h29, h33, h55, h65⟩, hop⟩
  all_goals
    rw [‹fieldNN op = _›] at hop
    exact ⟨rfl, hop⟩

/-- Settles O5, class by class: each instruction keeps every field of the word that its row does not fix. -/
theorem encodeOfDecode : Obligations.EncodeOfDecode := by
  intro op
  change Represents (decode op) op
  unfold decode
  split
  next h => exact represents_decodeClass0 h
  next h => exact ⟨rfl, packNNN_fields (by decide) h⟩
  next h => exact ⟨rfl, packNNN_fields (by decide) h⟩
  next h => exact ⟨rfl, packXNN_fields (by decide) h⟩
  next h => exact ⟨rfl, packXNN_fields (by decide) h⟩
  next h => exact ⟨rfl, packXYN_fields (by decide) h⟩
  next h => exact ⟨rfl, packXNN_fields (by decide) h⟩
  next h => exact ⟨rfl, packXNN_fields (by decide) h⟩
  next h => exact represents_decodeClass8 h
  next h => exact ⟨rfl, packXYN_fields (by decide) h⟩
  next h => exact ⟨rfl, packNNN_fields (by decide) h⟩
  next h => exact ⟨rfl, packNNN_fields (by decide) h⟩
  next h => exact ⟨rfl, packXNN_fields (by decide) h⟩
  next h => exact ⟨rfl, packXYN_fields (by decide) h⟩
  next h => exact represents_decodeClassE h
  next =>
    have hF : fieldC op = 0xF#4 := by
      generalize fieldC op = c at *
      revert c
      decide
    exact represents_decodeClassF hF

theorem wf_decode (op : Word) : (decode op).wf = true := (encodeOfDecode op).1

theorem encode_decode (op : Word) : encode (decode op) = op := (encodeOfDecode op).2

/-! ### The rows of the opcode table (R49) -/

/-- A well-formed instruction's word has the fixed bits of its row: the family TableMatch in one statement. -/
theorem matchesWord_encode {i : Instr} (hwf : i.wf = true) : (rowOf i).matchesWord (encode i) = true := by
  cases i with
  | cls x => exact Laws.TableMatch.cls x hwf
  | ret x => exact Laws.TableMatch.ret x hwf
  | jp nnn => exact Laws.TableMatch.jp nnn hwf
  | call nnn => exact Laws.TableMatch.call nnn hwf
  | seImm x nn => exact Laws.TableMatch.seImm x nn hwf
  | sneImm x nn => exact Laws.TableMatch.sneImm x nn hwf
  | seReg x y n => exact Laws.TableMatch.seReg x y n hwf
  | ldImm x nn => exact Laws.TableMatch.ldImm x nn hwf
  | addImm x nn => exact Laws.TableMatch.addImm x nn hwf
  | ldReg x y => exact Laws.TableMatch.ldReg x y hwf
  | orReg x y => exact Laws.TableMatch.orReg x y hwf
  | andReg x y => exact Laws.TableMatch.andReg x y hwf
  | xorReg x y => exact Laws.TableMatch.xorReg x y hwf
  | addReg x y => exact Laws.TableMatch.addReg x y hwf
  | sub x y => exact Laws.TableMatch.sub x y hwf
  | shr x y => exact Laws.TableMatch.shr x y hwf
  | subn x y => exact Laws.TableMatch.subn x y hwf
  | shl x y => exact Laws.TableMatch.shl x y hwf
  | sneReg x y n => exact Laws.TableMatch.sneReg x y n hwf
  | ldI nnn => exact Laws.TableMatch.ldI nnn hwf
  | jpV0 nnn => exact Laws.TableMatch.jpV0 nnn hwf
  | rnd x nn => exact Laws.TableMatch.rnd x nn hwf
  | drw x y n => exact Laws.TableMatch.drw x y n hwf
  | skp x => exact Laws.TableMatch.skp x hwf
  | sknp x => exact Laws.TableMatch.sknp x hwf
  | ldVDt x => exact Laws.TableMatch.ldVDt x hwf
  | ldVK x => exact Laws.TableMatch.ldVK x hwf
  | ldDtV x => exact Laws.TableMatch.ldDtV x hwf
  | ldStV x => exact Laws.TableMatch.ldStV x hwf
  | addI x => exact Laws.TableMatch.addI x hwf
  | ldF x => exact Laws.TableMatch.ldF x hwf
  | ldB x => exact Laws.TableMatch.ldB x hwf
  | ldMemV x => exact Laws.TableMatch.ldMemV x hwf
  | ldVMem x => exact Laws.TableMatch.ldVMem x hwf
  | sys nnn => exact Laws.TableMatch.sys nnn hwf
  | nop8 x y n => exact Laws.TableMatch.nop8 x y n hwf
  | nopE x nn => exact Laws.TableMatch.nopE x nn hwf
  | nopF x nn => exact Laws.TableMatch.nopF x nn hwf

theorem rowOf_mem_opcodeTable (i : Instr) : rowOf i ∈ opcodeTable := by
  cases i <;> simp [opcodeTable, rowOf]

theorem exists_rowOf_of_mem {r : Row} (h : r ∈ opcodeTable) : ∃ i, rowOf i = r := by
  obtain ⟨i, -, hi⟩ := List.mem_map.1 h
  exact ⟨i, hi⟩

/-- A word that matches a row has the row's class, since every row fixes the class. -/
theorem fieldC_of_matchesWord {r : Row} {op : Word} (h : r.matchesWord op = true) (hm : fieldC r.mask = 0xF#4) :
    fieldC op = fieldC r.pattern := by
  have hand : fieldC (op &&& r.mask) = fieldC op &&& fieldC r.mask := BitVec.extractLsb'_and ..
  rw [← beq_iff_eq.1 h, hand, hm]
  exact (BitVec.and_allOnes).symm

theorem fieldN_of_matchesWord {r : Row} {op : Word} (h : r.matchesWord op = true) (hm : fieldN r.mask = 0xF#4) :
    fieldN op = fieldN r.pattern := by
  have hand : fieldN (op &&& r.mask) = fieldN op &&& fieldN r.mask := BitVec.extractLsb'_and ..
  rw [← beq_iff_eq.1 h, hand, hm]
  exact (BitVec.and_allOnes).symm

theorem fieldNN_of_matchesWord {r : Row} {op : Word} (h : r.matchesWord op = true) (hm : fieldNN r.mask = 0xFF#8) :
    fieldNN op = fieldNN r.pattern := by
  have hand : fieldNN (op &&& r.mask) = fieldNN op &&& fieldNN r.mask := BitVec.extractLsb'_and ..
  rw [← beq_iff_eq.1 h, hand, hm]
  exact (BitVec.and_allOnes).symm

/-- A word that matches an instruction row decodes to an instruction of that row: the class and the sub-code that the row
fixes are what the decoder looks at. -/
theorem rowOf_decode_of_matchesWord {i : Instr} {op : Word} (hf : (rowOf i).fallback = false)
    (h : (rowOf i).matchesWord op = true) : rowOf (decode op) = rowOf i := by
  cases i with
  | cls | ret =>
    rw [rowOf] at h ⊢
    rw [decode_of_class0 (fieldC_of_matchesWord h rfl), decodeClass0_eq, fieldNN_of_matchesWord h rfl]
    rfl
  | ldReg | orReg | andReg | xorReg | addReg | sub | shr | subn | shl =>
    rw [rowOf] at h ⊢
    rw [decode_of_class8 (fieldC_of_matchesWord h rfl), decodeClass8_eq, fieldN_of_matchesWord h rfl]
    rfl
  | skp | sknp =>
    rw [rowOf] at h ⊢
    rw [decode_of_classE (fieldC_of_matchesWord h rfl), decodeClassE_eq, fieldNN_of_matchesWord h rfl]
    rfl
  | ldVDt | ldVK | ldDtV | ldStV | addI | ldF | ldB | ldMemV | ldVMem =>
    rw [rowOf] at h ⊢
    rw [decode_of_classF (fieldC_of_matchesWord h rfl), decodeClassF_eq, fieldNN_of_matchesWord h rfl]
    rfl
  | jp | call | seImm | sneImm | seReg | ldImm | addImm | sneReg | ldI | jpV0 | rnd | drw =>
    rw [rowOf] at h ⊢
    rw [decode_eq, fieldC_of_matchesWord h rfl]
    rfl
  | sys | nop8 | nopE | nopF => cases hf

/-- Settles O6: the word is the encoding of what it decodes to, so it matches that row, and an instruction row that it
matches is that row. -/
theorem decoderFollowsOpcodeTable : Obligations.DecoderFollowsOpcodeTable := by
  intro op
  have hown := matchesWord_encode (wf_decode op)
  rw [encode_decode] at hown
  refine ⟨hown, rowOf_mem_opcodeTable _, fun r hr hf hmatch => ?_⟩
  obtain ⟨i, rfl⟩ := exists_rowOf_of_mem hr
  have hrow := rowOf_decode_of_matchesWord hf hmatch
  exact ⟨hrow.symm, hrow ▸ hf⟩

/-! ### Words written out from the map (R49) -/

/-- Settles O1: fifteen closed words, each computed. -/
theorem knownWordsDecode : Obligations.KnownWordsDecode := by
  unfold Obligations.KnownWordsDecode
  decide

end Sys2Proof
end

section
/-! PROOFS. The control-flow family (spec/41_flow.md), the jumps, CALL and RET, and the fetch beyond memory that a jump
can lead to (spec/20_memory.md R38). -/

namespace Sys2Proof

/-! ### The words that a statement writes with the sub-code in the constant (R46) -/

theorem ofNat_eq_packXNN (c x : Nat) (nn : Byte) :
    BitVec.ofNat 16 (c * 4096 + nn.toNat + 256 * x) = packXNN c x nn := by
  unfold packXNN
  congr 1
  omega

/-- The word that encodes a well-formed instruction decodes to it. -/
theorem decode_of_encode_eq {i : Instr} {op : Word} (h : encode i = op) (hwf : i.wf = true) : decode op = i :=
  h ▸ decodeOfEncode i hwf

theorem encode_ret (x : Nibble) : encode (.ret x) = BitVec.ofNat 16 (0x00EE + 256 * x.toNat) :=
  (ofNat_eq_packXNN 0x0 x.toNat 0xEE).symm

namespace Machine

/-! ### The fetch beyond memory (R38) -/

/-- Settles O9: the step is entry of FETCH_RANGE on the state as it was. -/
theorem fetchBeyondMemoryFaults : Obligations.FetchBeyondMemoryFaults :=
  fun s h hpc => step_of_not_canFetch s h (by omega)

theorem step_of_pc_beyond {s : State} (h : s.faultCode = 0) (hpc : 0xFFE < s.pc.toNat) :
    ∃ t, step s = .next t ∧ t.faultCode = 3 :=
  ⟨_, fetchBeyondMemoryFaults s h hpc, rfl⟩

/-! ### The jumps (R68, R76) -/

theorem exec_jp (nnn : Addr12) (s : State) : exec (.jp nnn) s = .next { s with pc := nnn.setWidth 16 } := rfl

theorem exec_jpV0 (nnn : Addr12) (s : State) :
    exec (.jpV0 nnn) s = .next { s with pc := byteToWord (s.reg 0) + zext16 nnn } := rfl

/-- A step on the word of JP: PC takes the target and the timers tick. -/
theorem step_of_opcode_jp {s : State} {nnn : Addr12} (hs : s.ready) (hop : s.opcodeAtPc = 0x1000 + nnn.toNat) :
    step s = .next (State.tick { s with pc := nnn.setWidth 16 }) :=
  step_of_opcode_commits hs hop (decode_packNNN_class1 nnn) (exec_jp nnn s) hs.1

/-- Settles O15: JP is one write of PC; where the target is PC itself the tick is all that the step does, and from the
target 0xFFF nothing can be fetched. -/
theorem jumpToTarget : Obligations.JumpToTarget := by
  intro nnn s
  refine ⟨decode_packNNN_class1 nnn, exec_jp nnn s, fun hs hop hpc => ?self_loop, fun hs hop => ?last_address⟩
  case self_loop =>
    rw [step_of_opcode_jp hs hop, ← hpc]
    rfl
  case last_address =>
    have hstep := step_of_opcode_jp (nnn := 0xFFF) hs hop
    obtain ⟨u, hu, hcode⟩ := step_of_pc_beyond (s := State.tick { s with pc := 0xFFF }) hs.1
      (show 0xFFE < (0xFFF : Word).toNat by decide)
    exact ⟨_, u, hstep, hu, hs.1, hcode⟩

/-- Settles O16: JP V[0] is one write of PC, with a sum of at most 0xFF and 0xFFF, and from a target above 0xFFE nothing
can be fetched. -/
theorem indexedJump : Obligations.IndexedJump := by
  intro nnn s
  have hsum := byteToWord_add_zext16_toNat (s.reg 0) nnn
  have hle : (byteToWord (s.reg 0) + zext16 nnn).toNat ≤ 0x10FE := by omega
  exact ⟨decode_packNNN_classB nnn, _, exec_jpV0 nnn s, hsum, hle, rfl, step_of_pc_beyond⟩

/-! ### RET (R69) -/

theorem exec_ret_of_sp_zero (x : Nibble) {s : State} (h : s.sp = 0) :
    exec (.ret x) s = .next (s.takeFault .stackUnderflow 0 (encode (.ret x))) :=
  (exec_ret_next x s _).2 (.inl ⟨h, rfl⟩)

theorem exec_ret_of_sp_pos (x : Nibble) (s : State) (h : 0 < s.sp.toNat ∧ s.sp.toNat ≤ 16) :
    exec (.ret x) s = .next { s with sp := s.sp - 1, pc := s.stack[s.sp.toNat - 1] } := by
  have hne : s.sp ≠ 0 := by bv_omega
  have hsub : (s.advance.sp - 1).toNat = s.sp.toNat - 1 := sp_sub_one_toNat hne
  refine (exec_ret_next x s _).2 (.inr ⟨hne, (popReturn_eq_some _ _).2 ⟨by omega, ?_⟩⟩)
  simp only [hsub]
  rfl

theorem exec_ret_of_sp_above (x : Nibble) {s : State} (h : 16 < s.sp.toNat) :
    exec (.ret x) s = .fault .stackPointerAbove16 := by
  have hne : s.sp ≠ 0 := by bv_omega
  have hsub : (s.advance.sp - 1).toNat = s.sp.toNat - 1 := sp_sub_one_toNat hne
  have hpop : s.advance.popReturn = none := dif_neg (by omega)
  rw [exec, execRet, if_neg hne, hpop]

/-- Settles O19: the entry that RET reads is the one below SP, and the stack itself is not written. -/
theorem returnPops : Obligations.ReturnPops := by
  intro x s
  refine ⟨decode_of_encode_eq (encode_ret x) rfl, exec_ret_of_sp_pos x s, fun h => ?_⟩
  rw [exec_ret_of_sp_zero x h, encode_ret]
  rfl

/-! ### CALL (R70) -/

theorem exec_call_of_sp_full (nnn : Addr12) {s : State} (h : s.sp = 16) :
    exec (.call nnn) s = .next (s.takeFault .stackOverflow 16 (encode (.call nnn))) :=
  (exec_call_next nnn s _).2 (.inl ⟨h, rfl⟩)

theorem exec_call_of_sp_lt (nnn : Addr12) (s : State) (h : s.sp.toNat < 16) :
    exec (.call nnn) s = .next { s with
      stack := s.stack.set s.sp.toNat (s.pc + 2), sp := s.sp + 1, pc := nnn.setWidth 16 } := by
  have hne : s.sp ≠ 16 := by bv_omega
  exact (exec_call_next nnn s _).2 (.inr ⟨hne, _, (pushReturn_eq_some _ _).2 ⟨h, rfl⟩, rfl⟩)

theorem exec_call_of_sp_above (nnn : Addr12) {s : State} (h : 16 < s.sp.toNat) :
    exec (.call nnn) s = .fault .stackPointerAbove16 := by
  have hne : s.sp ≠ 16 := by bv_omega
  have hpush : s.advance.pushReturn = none := dif_neg (by rw [advance_sp]; omega)
  rw [exec, execCall, if_neg hne, hpush]

/-- Settles O20: the provisional PC goes to the entry at SP; the fault's opcode is the word of CALL. -/
theorem callPushes : Obligations.CallPushes :=
  fun nnn s => ⟨decode_packNNN_class2 nnn, exec_call_of_sp_lt nnn s, exec_call_of_sp_full nnn⟩

/-- Settles O21: both leave a state whose SP is above 16 no entry to read or write. -/
theorem stackPointerAbove16Stops : Obligations.StackPointerAbove16Stops :=
  fun x nnn _ h => ⟨exec_ret_of_sp_above x h, exec_call_of_sp_above nnn h⟩

/-- Settles O22: RET reads the entry below the SP that CALL left, which is the entry that CALL wrote. -/
theorem returnResumesAfterCall : Obligations.ReturnResumesAfterCall := by
  intro nnn x s hsp
  refine ⟨_, exec_call_of_sp_lt nnn s hsp, fun u husp hustack => ?_⟩
  have hnat : u.sp.toNat = s.sp.toNat + 1 := by
    rw [husp]
    bv_omega
  have hback : u.sp - 1 = s.sp := by
    rw [husp]
    bv_omega
  rw [exec_ret_of_sp_pos x u (by omega), hback]
  simp only [hnat, hustack, Nat.add_sub_cancel, Vector.getElem_set_self]

end Machine
end Sys2Proof
end

section
/-! PROOFS. The arithmetic and logic family (spec/42_alu.md): the five instructions that write VF as a flag, and RND. -/

namespace Sys2Proof

/-! ### The words of class 0x8 by their sub-code (R52) -/

theorem decode_addReg_word (x y : Reg) : decode (BitVec.ofNat 16 (0x8004 + 256 * x.val + 16 * y.val)) = .addReg x y :=
  (congrArg decode (ofNat_class8_eq_packXYN x y 4)).trans (decode_packXYN_class8 x y 4)

theorem decode_sub_word (x y : Reg) : decode (BitVec.ofNat 16 (0x8005 + 256 * x.val + 16 * y.val)) = .sub x y :=
  (congrArg decode (ofNat_class8_eq_packXYN x y 5)).trans (decode_packXYN_class8 x y 5)

theorem decode_shr_word (x y : Reg) : decode (BitVec.ofNat 16 (0x8006 + 256 * x.val + 16 * y.val)) = .shr x y :=
  (congrArg decode (ofNat_class8_eq_packXYN x y 6)).trans (decode_packXYN_class8 x y 6)

theorem decode_subn_word (x y : Reg) : decode (BitVec.ofNat 16 (0x8007 + 256 * x.val + 16 * y.val)) = .subn x y :=
  (congrArg decode (ofNat_class8_eq_packXYN x y 7)).trans (decode_packXYN_class8 x y 7)

theorem decode_shl_word (x y : Reg) : decode (BitVec.ofNat 16 (0x800E + 256 * x.val + 16 * y.val)) = .shl x y :=
  (congrArg decode (ofNat_class8_eq_packXYN x y 0xE)).trans (decode_packXYN_class8 x y 0xE)

namespace Machine

/-! ### The flags as numbers (R12) -/

theorem flagByte_toNat (c : Bool) : (flagByte c).toNat = if c = true then 1 else 0 := by
  cases c <;> rfl

theorem carryFlag_toNat (a b : Byte) : (carryFlag a b).toNat = if a.toNat + b.toNat > 255 then 1 else 0 := by
  rw [carryFlag, flagByte_toNat]
  simp only [decide_eq_true_eq, gt_iff_lt]

theorem noBorrowFlag_toNat (a b : Byte) : (noBorrowFlag a b).toNat = if a.toNat > b.toNat then 1 else 0 := by
  rw [noBorrowFlag, flagByte_toNat]
  simp only [decide_eq_true_eq, gt_iff_lt]

theorem shrFlag_toNat (a : Byte) : (shrFlag a).toNat = a.toNat % 2 := by
  rw [shrFlag, BitVec.toNat_and]
  exact Nat.and_one_is_mod _

theorem shlFlag_toNat (a : Byte) : (shlFlag a).toNat = a.toNat / 128 := by
  rw [shlFlag, BitVec.toNat_ushiftRight, Nat.shiftRight_eq_div_pow]

/-! ### The results as numbers (R84–R87) -/

theorem byte_sub_toNat (a b : Byte) : (a - b).toNat = (a.toNat + 256 - b.toNat) % 256 := by
  rw [BitVec.toNat_sub]
  omega

theorem byte_shiftRight_one_toNat (a : Byte) : (a >>> 1).toNat = a.toNat / 2 := by
  rw [BitVec.toNat_ushiftRight, Nat.shiftRight_eq_div_pow]

theorem byte_shiftLeft_one_toNat (a : Byte) : (a <<< 1).toNat = 2 * a.toNat % 256 := by
  rw [BitVec.toNat_shiftLeft, Nat.shiftLeft_eq]
  omega

/-! ### The flag writers as "flag, then result" after the advance (R83–R87) -/

section
variable (s : State) (x y : Reg) (flag result : Byte → Byte → Byte)

/-- V[x] holds the result of the operands as they are once VF holds the flag. -/
theorem reg_advance_flagThenResult_self :
    (s.advance.flagThenResult x y flag result).reg x =
      result (if x = 15 then flag (s.reg x) (s.reg y) else s.reg x)
        (if y = 15 then flag (s.reg x) (s.reg y) else s.reg y) := by
  rw [reg_flagThenResult, if_pos rfl]
  rfl

/-- VF holds the flag unless it is the destination, and every other register and the rest of the state are as the advance
left them. -/
theorem advance_flagThenResult_frame {c : Nat} (hc : (flag (s.reg x) (s.reg y)).toNat = c) :
    (x ≠ 15 → ((s.advance.flagThenResult x y flag result).reg 15).toNat = c) ∧
      (∀ k, k ≠ x → k ≠ 15 → (s.advance.flagThenResult x y flag result).reg k = s.reg k) ∧
      { s.advance.flagThenResult x y flag result with v := s.v } = { s with pc := s.pc + 2 } := by
  refine ⟨fun hx => ?_, fun k hx hvf => ?_, rfl⟩
  · rw [reg_flagThenResult, if_neg (Ne.symm hx), if_pos rfl, ← hc]
    rfl
  · rw [reg_flagThenResult, if_neg hx, if_neg hvf]
    rfl
end

theorem exec_addReg (x y : Reg) (s : State) :
    exec (.addReg x y) s = .next (s.advance.flagThenResult x y carryFlag fun a b => a + b) := rfl

theorem exec_sub (x y : Reg) (s : State) :
    exec (.sub x y) s = .next (s.advance.flagThenResult x y noBorrowFlag fun a b => a - b) := rfl

theorem exec_subn (x y : Reg) (s : State) :
    exec (.subn x y) s = .next (s.advance.flagThenResult x y (fun a b => noBorrowFlag b a) fun a b => b - a) := rfl

theorem exec_shr (x y : Reg) (s : State) :
    exec (.shr x y) s = .next (s.advance.flagThenResult x y (fun a _ => shrFlag a) fun a _ => a >>> 1) := rfl

theorem exec_shl (x y : Reg) (s : State) :
    exec (.shl x y) s = .next (s.advance.flagThenResult x y (fun a _ => shlFlag a) fun a _ => a <<< 1) := rfl

/-- Settles O25: the carry's number is c, and the byte's addition is the sum modulo 256 of what the operands are once VF
holds the carry. -/
theorem addWithCarry : Obligations.AddWithCarry := by
  intro x y s c hc
  have hflag : (carryFlag (s.reg x) (s.reg y)).toNat = c := (carryFlag_toNat _ _).trans hc.symm
  refine ⟨decode_addReg_word x y, _, exec_addReg x y s, ?_, advance_flagThenResult_frame s x y _ _ hflag⟩
  rw [reg_advance_flagThenResult_self, BitVec.toNat_add, apply_ite BitVec.toNat, apply_ite BitVec.toNat, hflag]

/-- Settles O26: as for the sum, with the strict flag; SUBN is SUB with the operands exchanged. -/
theorem subtractBothWays : Obligations.SubtractBothWays := by
  intro x y s f g hf hg
  have hflagF : (noBorrowFlag (s.reg x) (s.reg y)).toNat = f := (noBorrowFlag_toNat _ _).trans hf.symm
  have hflagG : (noBorrowFlag (s.reg y) (s.reg x)).toNat = g := (noBorrowFlag_toNat _ _).trans hg.symm
  refine ⟨decode_sub_word x y, decode_subn_word x y, ?sub, ?subn⟩
  case sub =>
    refine ⟨_, exec_sub x y s, ?_, advance_flagThenResult_frame s x y _ _ hflagF⟩
    rw [reg_advance_flagThenResult_self, byte_sub_toNat, apply_ite BitVec.toNat, apply_ite BitVec.toNat, hflagF]
  case subn =>
    refine ⟨_, exec_subn x y s, ?_, advance_flagThenResult_frame s x y (fun a b => noBorrowFlag b a) _ hflagG⟩
    rw [reg_advance_flagThenResult_self, byte_sub_toNat, apply_ite BitVec.toNat, apply_ite BitVec.toNat, hflagG]

/-- Settles O27: a shift of what V[x] is once VF holds the bit shifted out; with X = 15 that is the bit itself, 0 or 1. -/
theorem shiftByOne : Obligations.ShiftByOne := by
  intro x y s
  refine ⟨decode_shr_word x y, decode_shl_word x y, ?shr, ?shl⟩
  case shr =>
    refine ⟨_, exec_shr x y s, ?_, advance_flagThenResult_frame s x y (fun a _ => shrFlag a) _ (shrFlag_toNat _)⟩
    rw [reg_advance_flagThenResult_self, byte_shiftRight_one_toNat, apply_ite BitVec.toNat, shrFlag_toNat]
    split_ifs
    · omega
    · rfl
  case shl =>
    refine ⟨_, exec_shl x y s, ?_, advance_flagThenResult_frame s x y (fun a _ => shlFlag a) _ (shlFlag_toNat _)⟩
    rw [reg_advance_flagThenResult_self, byte_shiftLeft_one_toNat, apply_ite BitVec.toNat, shlFlag_toNat]
    split_ifs
    · omega
    · rfl

/-! ### RND (R88) -/

theorem exec_rnd (x : Reg) (nn : Byte) (s : State) :
    exec (.rnd x nn) s = .next (rndWith (Config.rnd s.rndCount) x nn s).countRnd := rfl

theorem reg_rndWith_self (input : Byte) (x : Reg) (nn : Byte) (s : State) :
    (rndWith input x nn s).reg x = input &&& nn :=
  reg_setReg_self _ _ _

theorem countRnd_rndWith_frame (input : Byte) (x : Reg) (nn : Byte) (s : State) :
    (∀ k, k ≠ x → (rndWith input x nn s).countRnd.reg k = s.reg k) ∧
      { (rndWith input x nn s).countRnd with v := s.v } = { s with pc := s.pc + 2, rndCount := s.rndCount + 1 } :=
  ⟨(advance_setReg_frame s x _).1, rfl⟩

/-- Settles O28: V[x] is the input masked by NN, so a set bit of it is set in NN, and the masks 0 and 0xFF leave nothing
and everything. -/
theorem randomByteMasked : Obligations.RandomByteMasked := by
  intro x nn s
  rw [Nat.mul_comm 256]
  have hreg : (rndWith (Config.rnd s.rndCount) x nn s).countRnd.reg x = Config.rnd s.rndCount &&& nn :=
    reg_rndWith_self _ x nn s
  refine ⟨decode_packXNN_classC x nn, fun input => reg_rndWith_self input x nn s, _, exec_rnd x nn s, hreg, ?bits, ?zero,
    ?ones, countRnd_rndWith_frame _ x nn s⟩
  case bits =>
    intro b hb
    rw [hreg, BitVec.getLsbD_and, Bool.and_eq_true] at hb
    exact hb.2
  case zero =>
    intro h
    rw [hreg, h]
    exact BitVec.and_zero
  case ones =>
    intro h
    rw [hreg, h]
    exact BitVec.and_allOnes

end Machine
end Sys2Proof
end

section
/-! PROOFS. The index-register and memory family (spec/43_index_memory.md, spec/20_memory.md): the block transfers, their
range check, and what a fetch reads of the bytes stored. -/

namespace Sys2Proof

/-! ### The words of the transfers (R49, R54) -/

theorem encode_ldB (x : Reg) : encode (.ldB x) = BitVec.ofNat 16 (0xF033 + 256 * x.val) :=
  (ofNat_classF_eq_packXNN x 0x33).symm

theorem encode_ldMemV (x : Reg) : encode (.ldMemV x) = BitVec.ofNat 16 (0xF055 + 256 * x.val) :=
  (ofNat_classF_eq_packXNN x 0x55).symm

theorem encode_ldVMem (x : Reg) : encode (.ldVMem x) = BitVec.ofNat 16 (0xF065 + 256 * x.val) :=
  (ofNat_classF_eq_packXNN x 0x65).symm

theorem encode_drw (x y : Reg) (n : Nibble) :
    encode (.drw x y n) = BitVec.ofNat 16 (0xD000 + 256 * x.val + 16 * y.val + n.toNat) := by
  rw [Nat.mul_comm 256, Nat.mul_comm 16]
  rfl

namespace Machine

/-! ### Reads after a sequence of writes (R36, R39) -/

theorem read_writeBytes_inside {m : Memory} {bs : List Byte} {a k : Nat} (hm : m.wf = true)
    (hfits : a + bs.length ≤ Config.memSize) (hk : k < bs.length) : (m.writeBytes a bs).read (a + k) = bs[k] := by
  rw [read_writeBytes bs m hm a _ hfits, dif_pos (by omega)]
  simp only [Nat.add_sub_cancel_left]

theorem read_writeBytes_outside {m : Memory} {bs : List Byte} {a b : Nat} (hm : m.wf = true)
    (hfits : a + bs.length ≤ Config.memSize) (hb : b < a ∨ a + bs.length ≤ b) : (m.writeBytes a bs).read b = m.read b := by
  rw [read_writeBytes bs m hm a _ hfits, dif_neg (by omega)]

/-! ### The transfers that stay inside memory (R94, R95, R96) -/

theorem exec_ldB_of_le (x : Reg) {s : State} (h : s.i.toNat + 2 ≤ 0xFFF) :
    exec (.ldB x) s = .next (s.advance.setMem (s.mem.writeBytes (s.dataAddr 0) (decimalDigits (s.reg x)))) :=
  (exec_ldB_next x s _).2 (.inr ⟨(outOfRange_eq_false s 3).2 (.inr (by omega)), rfl⟩)

theorem exec_ldMemV_of_le {x : Reg} {s : State} (h : s.i.toNat + x.val ≤ 0xFFF) :
    exec (.ldMemV x) s = .next (s.advance.setMem (s.mem.writeBytes (s.dataAddr 0) (s.regBlock x))) :=
  (exec_ldMemV_next x s _).2 (.inr ⟨(outOfRange_eq_false s _).2 (.inr (by omega)), rfl⟩)

theorem exec_ldVMem_of_le {x : Reg} {s : State} (h : s.i.toNat + x.val ≤ 0xFFF) :
    exec (.ldVMem x) s = .next (s.advance.loadRegs x) :=
  (exec_ldVMem_next x s _).2 (.inr ⟨(outOfRange_eq_false s _).2 (.inr (by omega)), rfl⟩)

theorem advance_setMem_frame (s : State) (m : Memory) :
    { s.advance.setMem m with mem := s.mem } = { s with pc := s.pc + 2 } := rfl

/-! ### The three decimal digits (R94) -/

/-- Settles O30: the three bytes written are the digits, each below 256, and a read elsewhere is a read of the memory as
it was. -/
theorem decimalDigitsStored : Obligations.DecimalDigitsStored := by
  intro x s hinv hi
  have hfits : s.dataAddr 0 + (decimalDigits (s.reg x)).length ≤ Config.memSize := by
    rw [length_decimalDigits, State.dataAddr, Config.memSize]
    omega
  have hread : ∀ (k : Nat) (hk : k < 3), (s.mem.writeBytes (s.dataAddr 0) (decimalDigits (s.reg x))).read (s.i.toNat + k) =
      (decimalDigits (s.reg x))[k] := fun k hk => read_writeBytes_inside hinv.mem_wf hfits hk
  have hbyte : ∀ d, d < 256 → (BitVec.ofNat 8 d).toNat = d := fun d hd => BitVec.toNat_ofNat .. ▸ Nat.mod_eq_of_lt hd
  refine ⟨decode_of_encode_eq (encode_ldB x) rfl, _, exec_ldB_of_le x hi, advance_setMem_frame s _, ?hundreds, ?tens,
    ?units, ?outside⟩
  case hundreds => exact (congrArg BitVec.toNat (hread 0 (by decide))).trans (hbyte _ (by omega))
  case tens => exact (congrArg BitVec.toNat (hread 1 (by decide))).trans (hbyte _ (by omega))
  case units => exact (congrArg BitVec.toNat (hread 2 (by decide))).trans (hbyte _ (by omega))
  case outside =>
    rintro a rfl b hb
    exact read_writeBytes_outside hinv.mem_wf hfits hb

/-! ### Blocks of registers (R95, R96) -/

/-- The block of x + 1 registers at I fits where its last byte does. -/
theorem regBlock_fits {x : Reg} {s : State} (h : s.i.toNat + x.val ≤ 0xFFF) :
    s.dataAddr 0 + (s.regBlock x).length ≤ Config.memSize := by
  rw [length_regBlock, State.dataAddr, Config.memSize]
  omega

/-- The memory that FX55 leaves holds V[k] at I + k. -/
theorem read_store_regBlock {x k : Reg} {s : State} (hm : s.mem.wf = true) (h : s.i.toNat + x.val ≤ 0xFFF) (hk : k ≤ x) :
    (s.mem.writeBytes (s.dataAddr 0) (s.regBlock x)).read (s.i.toNat + k.val) = s.reg k := by
  have hlt : k.val < (s.regBlock x).length := by
    rw [length_regBlock]
    exact Nat.lt_succ_of_le hk
  exact (read_writeBytes_inside hm (regBlock_fits h) hlt).trans (getElem_regBlock s x k.val k.isLt hlt)

/-- Settles O31: the bytes written are the registers in order, and a read elsewhere is a read of the memory as it was. -/
theorem registerBlockStored : Obligations.RegisterBlockStored := by
  intro x s hinv hi
  refine ⟨decode_of_encode_eq (encode_ldMemV x) rfl, _, exec_ldMemV_of_le hi, advance_setMem_frame s _,
    fun k hk => read_store_regBlock hinv.mem_wf hi hk, ?outside⟩
  case outside =>
    rintro a rfl b hb
    exact read_writeBytes_outside hinv.mem_wf (regBlock_fits hi) (by rwa [length_regBlock])

/-- The registers that FX65 leaves: MEM[I + k] up to X, and the others as they were. -/
theorem reg_advance_loadRegs (s : State) (x : Reg) :
    (∀ k : Reg, k ≤ x → (s.advance.loadRegs x).reg k = s.mem.read (s.i.toNat + k.val)) ∧
      (∀ k : Reg, x < k → (s.advance.loadRegs x).reg k = s.reg k) := by
  refine ⟨fun k hk => ?_, fun k hk => ?_⟩
  · rw [reg_loadRegs, if_pos (Fin.le_def.1 hk)]
    rfl
  · rw [reg_loadRegs, if_neg (Nat.not_le.2 hk), reg_advance]

/-- Settles O32: each register up to X takes its byte, and V is all that is written besides PC. -/
theorem registerBlockLoaded : Obligations.RegisterBlockLoaded :=
  fun x s hi => ⟨decode_of_encode_eq (encode_ldVMem x) rfl, _, exec_ldVMem_of_le hi, loadRegs_frame s.advance x s.v,
    reg_advance_loadRegs s x⟩

/-- Settles O33: FX65 reads at I + k what FX55 wrote there. -/
theorem storeThenLoadRestores : Obligations.StoreThenLoadRestores := by
  intro x s hinv hi
  refine ⟨_, exec_ldMemV_of_le hi, fun w hwi hwmem => ?_⟩
  have hsame : w.i = s.i := hwi
  obtain ⟨hload, hrest⟩ := reg_advance_loadRegs w x
  refine ⟨_, exec_ldVMem_of_le (hsame ▸ hi), fun k hk => ?_, hrest⟩
  rw [hload k hk, hwmem, hsame]
  exact read_store_regBlock hinv.mem_wf hi hk

/-! ### The range check (R37) -/

/-- Settles O34: the check of n bytes fails exactly where the last one lies above 0xFFF, and the fault's opcode is the
instruction's word. -/
theorem dataAccessBeyondMemoryFaults : Obligations.DataAccessBeyondMemoryFaults := by
  intro x y n s
  rw [← encode_ldB, ← encode_ldMemV, ← encode_ldVMem, ← encode_drw]
  refine ⟨fun h => ?ldB, fun h => ?ldMemV, fun h => ?ldVMem, fun hn h => ?drw⟩
  case ldB => exact (exec_ldB_next x s _).2 (.inl ⟨(outOfRange_eq_true s _).2 ⟨by decide, by omega⟩, rfl⟩)
  case ldMemV => exact (exec_ldMemV_next x s _).2 (.inl ⟨(outOfRange_eq_true s _).2 ⟨by omega, by omega⟩, rfl⟩)
  case ldVMem => exact (exec_ldVMem_next x s _).2 (.inl ⟨(outOfRange_eq_true s _).2 ⟨by omega, by omega⟩, rfl⟩)
  case drw => exact (exec_drw_next x y n s _).2 (.inl ⟨(outOfRange_eq_true s _).2 ⟨hn, by omega⟩, rfl⟩)

/-! ### The bytes that a fetch reads (R35, R43) -/

/-- Settles O35: the two bytes at PC are those of the two registers, high byte first. -/
theorem storeIsFetched : Obligations.StoreIsFetched := by
  intro x k j s t hinv hi hj hjx hexec u hmem hpc
  rw [exec_ldMemV_of_le hi] at hexec
  obtain rfl := Host.Outcome.next.inj hexec
  have hkx : k ≤ x := Fin.le_def.2 (by have := Fin.le_def.1 hjx; omega)
  have hnext : u.pc.toNat + 1 = s.i.toNat + j.val := by omega
  rw [State.opcodeAtPc, hnext, hpc, hmem, setMem_mem, read_store_regBlock hinv.mem_wf hi hkx,
    read_store_regBlock hinv.mem_wf hi hjx]

theorem tableWordBytes_of_word (op : Word) : tableWordBytes 16 op.toNat = [highByte op, lowByte op] := by
  have hmod : op.toNat % 2 ^ min 16 16 = op.toNat := Nat.mod_eq_of_lt op.isLt
  rw [tableWordBytes, hmod, BitVec.ofNat_toNat, BitVec.setWidth_eq]

/-- Settles O10: the two bytes written at PC are the high and the low byte of the word, and they make up the word. -/
theorem placedWordIsFetched : Obligations.PlacedWordIsFetched := by
  intro s op hinv hready
  have hfits : s.pc.toNat + [highByte op, lowByte op].length ≤ Config.memSize := by
    have := hready.2
    simp only [List.length_cons, List.length_nil, Config.memSize]
    omega
  have hplaced : s.withFetchWord 16 op.toNat = s.setMem (s.mem.writeBytes s.pc.toNat [highByte op, lowByte op]) := by
    rw [State.withFetchWord, tableWordBytes_of_word]
  have hhigh := read_writeBytes_inside (k := 0) hinv.mem_wf hfits Nat.zero_lt_two
  have hlow := read_writeBytes_inside (k := 1) hinv.mem_wf hfits Nat.one_lt_two
  simp only [Nat.add_zero, List.getElem_cons_zero, List.getElem_cons_succ] at hhigh hlow
  rw [hplaced]
  refine ⟨?_, ?_, fun a ha ha' => ?_, rfl⟩
  · simp only [State.opcodeAtPc, setMem_mem, setMem_pc, hhigh, hlow, highByte_toNat, lowByte_toNat]
    omega
  · rw [setMem_mem, hhigh, highByte_toNat]
  · refine read_writeBytes_outside hinv.mem_wf hfits ?_
    simp only [List.length_cons, List.length_nil]
    omega

end Machine
end Sys2Proof
end

section
/-! PROOFS. The display family (spec/44_display.md): CLS, the cells that DXYN toggles, its collision flag, and the XOR
law. -/

namespace Sys2Proof

theorem encode_cls (x : Nibble) : encode (.cls x) = BitVec.ofNat 16 (0x00E0 + 256 * x.toNat) :=
  (ofNat_eq_packXNN 0x0 x.toNat 0xE0).symm

namespace Machine

/-! ### CLS (R97) -/

theorem exec_cls (x : Nibble) (s : State) : exec (.cls x) s = .next (s.advance.setScreen Display.clear) := rfl

/-- Settles O36: the meaning is one write of the frame buffer, with the empty one, after the advance. -/
theorem clearScreen : Obligations.ClearScreen :=
  fun x s => ⟨decode_of_encode_eq (encode_cls x) rfl, _, exec_cls x s, fun px py _ _ => cell_clear px py, rfl, rfl⟩

/-! ### What one draw leaves (R98–R101) -/

/-- The statements' sprite is the one that the laws of the frame buffer speak of. -/
theorem covers_iff_spriteOver (s : State) (x y : Reg) (n px py : Nat) :
    s.covers x y n px py ↔ spriteOver s.spriteRow n (s.reg x).toNat (s.reg y).toNat px py := by
  constructor
  · rintro ⟨r, c, hr, hc, hx, hy, hbit⟩
    exact ⟨r, hr, c, hc, hbit, hx, hy⟩
  · rintro ⟨r, hr, c, hc, hbit, hx, hy⟩
    exact ⟨r, c, hr, hc, hx, hy, hbit⟩

section
variable (s : State) (x y : Reg) (n : Nat)

theorem cell_drawn_of_covers {px py : Nat} (hx : px < 64) (hy : py < 32) (h : s.covers x y n px py) :
    (s.drawn x y n).1.cell px py = !s.disp.cell px py := by
  have hcell := cell_drawSprite s.spriteRow n (s.reg x).toNat (s.reg y).toNat (s.disp, false) px py hx hy
  rw [← covers_iff_spriteOver, iff_true_right h] at hcell
  exact Bool.eq_iff_iff.2 (hcell.trans (by rw [Bool.not_eq_true', Bool.not_eq_true]))

theorem cell_drawn_of_not_covers {px py : Nat} (hx : px < 64) (hy : py < 32) (h : ¬ s.covers x y n px py) :
    (s.drawn x y n).1.cell px py = s.disp.cell px py := by
  have hcell := cell_drawSprite s.spriteRow n (s.reg x).toNat (s.reg y).toNat (s.disp, false) px py hx hy
  rw [← covers_iff_spriteOver, iff_false_right h, not_not] at hcell
  exact Bool.eq_iff_iff.2 hcell

/-- The collision bit: some covered cell inside the frame buffer held 1. -/
theorem drawn_collision_iff :
    (s.drawn x y n).2 = true ↔ ∃ px py, px < 64 ∧ py < 32 ∧ s.covers x y n px py ∧ s.disp.cell px py = true := by
  have hcoll := coll_drawSprite s.spriteRow n (s.reg x).toNat (s.reg y).toNat (s.disp, false)
  simp only [← covers_iff_spriteOver, Bool.false_eq_true, false_or] at hcoll
  exact hcoll
end

/-- DXYN whose sprite lies inside memory: the frame buffer, and then VF, after the advance. -/
theorem exec_drw_of_inside (x y : Reg) {n : Nibble} {s : State} (h : n.toNat = 0 ∨ s.i.toNat + n.toNat - 1 ≤ 0xFFF) :
    exec (.drw x y n) s =
      .next ((s.advance.setScreen (s.drawn x y n.toNat).1).setReg vf (flagByte (s.drawn x y n.toNat).2)) :=
  (exec_drw_next x y n s _).2 (.inr ⟨(outOfRange_eq_false s _).2 (by omega), rfl⟩)

/-- Settles O37: the frame buffer is the drawn one, VF is the one register written, and PC and DIRTY are the rest. -/
theorem drawTogglesCoveredCells : Obligations.DrawTogglesCoveredCells := by
  intro x y n s h
  exact ⟨decode_of_encode_eq (encode_drw x y n) rfl, _, exec_drw_of_inside x y h,
    fun px py hx hy => ⟨cell_drawn_of_covers s x y n.toNat hx hy, cell_drawn_of_not_covers s x y n.toNat hx hy⟩, rfl,
    fun k hk => reg_setReg_of_ne _ vf k _ hk, rfl⟩

/-- Settles O38: VF is the collision bit as a number. -/
theorem collisionFlag : Obligations.CollisionFlag := by
  intro x y n s h
  refine ⟨_, exec_drw_of_inside x y h, fun hc => ?_, fun hc => ?_⟩
  · exact (reg_setReg_self _ vf _).trans (congrArg flagByte ((drawn_collision_iff s x y _).2 hc))
  · rw [← drawn_collision_iff, Bool.not_eq_true] at hc
    exact (reg_setReg_self _ vf _).trans (congrArg flagByte hc)

/-! ### The XOR law (R102) -/

/-- Which cells a sprite covers depends on I, its bytes and the two coordinates only. -/
theorem covers_congr {s u : State} {x y x' y' : Reg} {n : Nat} (hx : u.reg x' = s.reg x) (hy : u.reg y' = s.reg y)
    (hrow : ∀ r, r < n → u.mem.read (u.i.toNat + r) = s.mem.read (s.i.toNat + r)) (px py : Nat) :
    u.covers x' y' n px py ↔ s.covers x y n px py := by
  simp only [State.covers, hx, hy]
  constructor
  · rintro ⟨r, c, hr, h⟩
    exact ⟨r, c, hr, hrow r hr ▸ h⟩
  · rintro ⟨r, c, hr, h⟩
    exact ⟨r, c, hr, (hrow r hr).symm ▸ h⟩

theorem flagByte_eq_one_iff (c : Bool) : flagByte c = 1 ↔ c = true := by
  cases c <;> decide

/-- Settles O39: the second draw toggles the same cells, so each covered cell is toggled twice and every other not at
all; a covered cell holds 1 before the second draw exactly when it held 0 before the first. -/
theorem drawTwiceRestores : Obligations.DrawTwiceRestores := by
  intro x y x' y' n s t u h hexec hdisp hi hx hy hrow
  rw [exec_drw_of_inside x y h] at hexec
  obtain rfl := Host.Outcome.next.inj hexec
  have hudisp : u.disp = (s.drawn x y n.toNat).1 := hdisp
  have hcov := covers_congr hx hy hrow
  refine ⟨_, exec_drw_of_inside x' y' (by rwa [hi]), display_ext fun px py hpx hpy => ?cells, ?flag⟩
  case cells =>
    rw [setReg_disp, setScreen_disp]
    by_cases hc : s.covers x y n.toNat px py
    · rw [cell_drawn_of_covers u x' y' _ hpx hpy ((hcov px py).2 hc), hudisp,
        cell_drawn_of_covers s x y _ hpx hpy hc, Bool.not_not]
    · rw [cell_drawn_of_not_covers u x' y' _ hpx hpy (mt (hcov px py).1 hc), hudisp,
        cell_drawn_of_not_covers s x y _ hpx hpy hc]
  case flag =>
    have hvf : ((u.advance.setScreen (u.drawn x' y' n.toNat).1).setReg vf (flagByte (u.drawn x' y' n.toNat).2)).reg 15 =
        flagByte (u.drawn x' y' n.toNat).2 := reg_setReg_self _ vf _
    have hheld : ∀ px py, px < 64 → py < 32 → s.covers x y n.toNat px py →
        (u.disp.cell px py = true ↔ s.disp.cell px py = false) := fun px py hpx hpy hc => by
      rw [hudisp, cell_drawn_of_covers s x y _ hpx hpy hc, Bool.not_eq_true']
    rw [hvf, flagByte_eq_one_iff, drawn_collision_iff]
    refine exists₂_congr fun px py => and_congr_right fun hpx => and_congr_right fun hpy => ?_
    rw [hcov]
    exact and_congr_right (hheld px py hpx hpy)

end Machine
end Sys2Proof
end

section
/-! PROOFS. The keypad and timer family (spec/45_keys_timers.md), the three instructions that read the keypad. -/

namespace Sys2Proof

/-! ### The words of the keypad instructions (R53, R54) -/

theorem encode_skp (x : Reg) : encode (.skp x) = BitVec.ofNat 16 (0xE09E + 256 * x.val) :=
  (ofNat_eq_packXNN 0xE x.val 0x9E).symm

theorem encode_sknp (x : Reg) : encode (.sknp x) = BitVec.ofNat 16 (0xE0A1 + 256 * x.val) :=
  (ofNat_eq_packXNN 0xE x.val 0xA1).symm

theorem encode_ldVK (x : Reg) : encode (.ldVK x) = BitVec.ofNat 16 (0xF00A + 256 * x.val) :=
  (ofNat_classF_eq_packXNN x 0x0A).symm

namespace Machine

/-! ### A keypad index of at most 15 (R105, R106, R108) -/

theorem advance_skipIf_not (s : State) (c : Bool) :
    s.advance.skipIf (!c) = { s with pc := if c = true then s.pc + 2 else s.pc + 4 } := by
  rw [advance_skipIf]
  cases c <;> rfl

theorem exec_skp_of_lt {x : Reg} {s : State} (h : (s.reg x).toNat < 16) :
    exec (.skp x) s = .next (s.advance.skipIf s.key[(s.reg x).toNat]) :=
  (exec_skp_next x s _).2 (.inr ⟨h, rfl⟩)

theorem exec_sknp_of_lt {x : Reg} {s : State} (h : (s.reg x).toNat < 16) :
    exec (.sknp x) s = .next (s.advance.skipIf (!s.key[(s.reg x).toNat])) :=
  (exec_sknp_next x s _).2 (.inr ⟨h, rfl⟩)

theorem exec_ldVK_of_lt {x : Reg} {s : State} (h : (s.reg x).toNat < 16) :
    exec (.ldVK x) s = .next (s.advance.setReg x (flagByte s.key[(s.reg x).toNat])) :=
  (exec_ldVK_next x s _).2 (.inr ⟨h, rfl⟩)

/-- Settles O42: each is the skip on the selected key, SKNP on its negation. -/
theorem skipsOnKey : Obligations.SkipsOnKey := by
  intro x s h
  refine ⟨decode_of_encode_eq (encode_skp x) rfl, decode_of_encode_eq (encode_sknp x) rfl, ?_, ?_⟩
  · rw [exec_skp_of_lt h, advance_skipIf]
  · rw [exec_sknp_of_lt h, advance_skipIf_not]

/-- Settles O43: one write of V[x], with the selected key as a byte, after the advance. -/
theorem keyReadAtOnce : Obligations.KeyReadAtOnce :=
  fun x s h => ⟨decode_of_encode_eq (encode_ldVK x) rfl, _, exec_ldVK_of_lt h, reg_setReg_self _ x _,
    advance_setReg_frame s x _⟩

/-! ### A keypad index above 15 (R112) -/

/-- Settles O44: there is no key to read, and the fault's opcode is the instruction's word. -/
theorem keyIndexBeyondKeypadFaults : Obligations.KeyIndexBeyondKeypadFaults := by
  intro x s h
  rw [← encode_skp, ← encode_sknp, ← encode_ldVK]
  exact ⟨(exec_skp_next x s _).2 (.inl ⟨h, rfl⟩), (exec_sknp_next x s _).2 (.inl ⟨h, rfl⟩),
    (exec_ldVK_next x s _).2 (.inl ⟨h, rfl⟩)⟩

end Machine
end Sys2Proof
end

section
/-! PROOFS. The whole machine: which elements an instruction may write, and what every instruction that answers a next
state leaves in the others (spec/10_state.md R19, spec/20_memory.md R31, spec/44_display.md R103). -/

namespace Sys2Proof.Machine

/-! ### The writers of each element -/

/-- What the instruction leaves as it was, element by element, unless it is one of the element's writers; a faulting
instruction writes none of them. V, PC, ST and the fault latch have lemmas of their own. An element that the updates leave
alone by definition need not be named where the structure is built. -/
structure WritesOnly (i : Instr) (s t : State) : Prop where
  mem : t.mem = s.mem ∨ (∃ x, i = .ldB x) ∨ ∃ x, i = .ldMemV x := by exact .inl rfl
  index : t.i = s.i ∨ (∃ a, i = .ldI a) ∨ (∃ x, i = .addI x) ∨ ∃ x, i = .ldF x := by exact .inl rfl
  stack : t.sp = s.sp ∧ t.stack = s.stack ∨ (∃ a, i = .call a) ∨ ∃ x, i = .ret x := by exact .inl ⟨rfl, rfl⟩
  dt : t.dt = s.dt ∨ ∃ x, i = .ldDtV x := by exact .inl rfl
  screen : t.dirty = s.dirty ∧ t.disp = s.disp ∨ (∃ x, i = .cls x) ∨ ∃ x y n, i = .drw x y n := by
    exact .inl ⟨rfl, rfl⟩
  rndCount : t.rndCount = s.rndCount ∨ ∃ x nn, i = .rnd x nn := by exact .inl rfl
  key : t.key = s.key := by exact rfl

theorem writesOnly_takeFault (i : Instr) (s : State) (c : Cause) (info op : Word) :
    WritesOnly i s (s.takeFault c info op) :=
  {}

theorem writesOnly_skipIf (i : Instr) (s : State) (c : Bool) : WritesOnly i s (s.advance.skipIf c) := by
  cases c <;> exact {}

theorem writesOnly_loadRegs (i : Instr) (s : State) (x : Reg) : WritesOnly i s (s.advance.loadRegs x) where
  mem := .inl (loadRegs_mem s.advance x)
  index := .inl (loadRegs_i s.advance x)
  stack := .inl ⟨loadRegs_sp s.advance x, loadRegs_stack s.advance x⟩
  dt := .inl (loadRegs_dt s.advance x)
  screen := .inl ⟨loadRegs_dirty s.advance x, loadRegs_disp s.advance x⟩
  rndCount := .inl (loadRegs_rndCount s.advance x)
  key := loadRegs_key s.advance x

/-- Every instruction that answers a next state writes only what is its own to write. -/
theorem exec_writesOnly {i : Instr} {s t : State} (h : exec i s = .next t) : WritesOnly i s t := by
  cases i with
  | ret x =>
    obtain ⟨-, rfl⟩ | ⟨-, hpop⟩ := (exec_ret_next x s t).1 h
    · exact writesOnly_takeFault ..
    · obtain ⟨-, rfl⟩ := (popReturn_eq_some _ _).1 hpop
      exact { stack := .inr (.inr ⟨x, rfl⟩) }
  | call nnn =>
    obtain ⟨-, rfl⟩ | ⟨-, u, hpush, rfl⟩ := (exec_call_next nnn s t).1 h
    · exact writesOnly_takeFault ..
    · obtain ⟨-, rfl⟩ := (pushReturn_eq_some _ _).1 hpush
      exact { stack := .inr (.inl ⟨nnn, rfl⟩) }
  | drw x y n =>
    obtain ⟨-, rfl⟩ | ⟨-, rfl⟩ := (exec_drw_next x y n s t).1 h
    · exact writesOnly_takeFault ..
    · exact { screen := .inr (.inr ⟨x, y, n, rfl⟩) }
  | ldB x =>
    obtain ⟨-, rfl⟩ | ⟨-, rfl⟩ := (exec_ldB_next x s t).1 h
    · exact writesOnly_takeFault ..
    · exact { mem := .inr (.inl ⟨x, rfl⟩) }
  | ldMemV x =>
    obtain ⟨-, rfl⟩ | ⟨-, rfl⟩ := (exec_ldMemV_next x s t).1 h
    · exact writesOnly_takeFault ..
    · exact { mem := .inr (.inr ⟨x, rfl⟩) }
  | ldVMem x =>
    obtain ⟨-, rfl⟩ | ⟨-, rfl⟩ := (exec_ldVMem_next x s t).1 h
    · exact writesOnly_takeFault ..
    · exact writesOnly_loadRegs ..
  | skp x =>
    obtain ⟨-, rfl⟩ | ⟨_, rfl⟩ := (exec_skp_next x s t).1 h
    · exact writesOnly_takeFault ..
    · exact writesOnly_skipIf ..
  | sknp x =>
    obtain ⟨-, rfl⟩ | ⟨_, rfl⟩ := (exec_sknp_next x s t).1 h
    · exact writesOnly_takeFault ..
    · exact writesOnly_skipIf ..
  | ldVK x =>
    obtain ⟨-, rfl⟩ | ⟨_, rfl⟩ := (exec_ldVK_next x s t).1 h
    · exact writesOnly_takeFault ..
    · exact {}
  | seImm | sneImm | seReg | sneReg =>
    obtain rfl := Host.Outcome.next.inj h
    exact writesOnly_skipIf ..
  | ldI nnn =>
    obtain rfl := Host.Outcome.next.inj h
    exact { index := .inr (.inl ⟨nnn, rfl⟩) }
  | addI x =>
    obtain rfl := Host.Outcome.next.inj h
    exact { index := .inr (.inr (.inl ⟨x, rfl⟩)) }
  | ldF x =>
    obtain rfl := Host.Outcome.next.inj h
    exact { index := .inr (.inr (.inr ⟨x, rfl⟩)) }
  | ldDtV x =>
    obtain rfl := Host.Outcome.next.inj h
    exact { dt := .inr ⟨x, rfl⟩ }
  | cls x =>
    obtain rfl := Host.Outcome.next.inj h
    exact { screen := .inr (.inl ⟨x, rfl⟩) }
  | rnd x nn =>
    obtain rfl := Host.Outcome.next.inj h
    exact { rndCount := .inr ⟨x, nn, rfl⟩ }
  | jp | ldImm | addImm | ldReg | orReg | andReg | xorReg | addReg | sub | shr | subn | shl | jpV0 | ldVDt | ldStV | sys
  | nop8 | nopE | nopF =>
    obtain rfl := Host.Outcome.next.inj h
    exact {}

theorem exec_writes_st {i : Instr} {s t : State} (h : exec i s = .next t) : t.st = s.st ∨ ∃ x, i = .ldStV x := by
  by_cases hi : ∃ x, i = .ldStV x
  · exact .inr hi
  · exact .inl (exec_next_st (not_exists.1 hi) h)

/-- Settles O56: the writers of each element, of ST from the timer family. -/
theorem writersOfMemoryIndexStackTimersScreen : Obligations.WritersOfMemoryIndexStackTimersScreen := by
  intro i s t _ h _
  have hw := exec_writesOnly h
  exact ⟨hw.mem, hw.index, hw.stack, hw.dt, exec_writes_st h, hw.screen.imp_left And.right, hw.rndCount, hw.key⟩

/-! ### VF (R12) -/

/-- A write of another register leaves VF. -/
theorem reg_vf_advance_setReg (s : State) (x : Reg) (b : Byte) (hx : x ≠ 15) :
    (s.advance.setReg x b).reg 15 = s.reg 15 :=
  (advance_setReg_frame s x b).1 15 (Ne.symm hx)

/-- Settles O57, instruction by instruction: a destination other than V[15] leaves VF, and the rest write no register. -/
theorem writersOfVF : Obligations.WritersOfVF := by
  intro i s t _ h ht
  cases i with
  | addReg | sub | shr | subn | shl | drw => trivial
  | ldImm x | addImm x | ldReg x | orReg x | andReg x | xorReg x | rnd x | ldVDt x =>
    obtain rfl := Host.Outcome.next.inj h
    exact reg_vf_advance_setReg s x _
  | ldVK x =>
    obtain ⟨_, rfl⟩ := commits_of_fault_or ((exec_ldVK_next x s t).1 h) ht
    exact reg_vf_advance_setReg s x _
  | ldVMem x =>
    obtain ⟨-, rfl⟩ := commits_of_fault_or ((exec_ldVMem_next x s t).1 h) ht
    intro hx
    exact (reg_advance_loadRegs s x).2 15 (Fin.lt_last_iff_ne_last.2 hx)
  | ret x =>
    obtain ⟨_, rfl⟩ := exec_ret_commits h ht
    rfl
  | call nnn =>
    obtain ⟨_, rfl⟩ := exec_call_commits h ht
    rfl
  | ldB x =>
    obtain ⟨-, rfl⟩ := commits_of_fault_or ((exec_ldB_next x s t).1 h) ht
    rfl
  | ldMemV x =>
    obtain ⟨-, rfl⟩ := commits_of_fault_or ((exec_ldMemV_next x s t).1 h) ht
    rfl
  | skp x =>
    obtain ⟨_, rfl⟩ := commits_of_fault_or ((exec_skp_next x s t).1 h) ht
    exact skipIf_v s.advance _
  | sknp x =>
    obtain ⟨_, rfl⟩ := commits_of_fault_or ((exec_sknp_next x s t).1 h) ht
    exact skipIf_v s.advance _
  | seImm | sneImm | seReg | sneReg =>
    obtain rfl := Host.Outcome.next.inj h
    exact skipIf_v s.advance _
  | cls | jp | ldI | jpV0 | ldDtV | ldStV | addI | ldF | sys | nop8 | nopE | nopF =>
    obtain rfl := Host.Outcome.next.inj h
    rfl

/-! ### What a whole step leaves (R59) -/

/-- An element that the tick and fault entry leave alone is, after a step, as it was or as the instruction left it. -/
theorem step_next_projection {α : Type} (f : State → α) (htick : ∀ u : State, f u.tick = f u)
    (hfault : ∀ (u : State) (c : Cause) (info op : Word), f (u.takeFault c info op) = f u) {s t : State}
    (h : step s = .next t) : f t = f s ∨ ∃ u, exec (decode s.fetchWord) s = .next u ∧ f t = f u := by
  obtain ⟨-, rfl⟩ | ⟨-, -, rfl⟩ | ⟨-, u, hu, rfl⟩ := (step_eq_next s t).1 h
  · exact .inl rfl
  · exact .inl (hfault ..)
  · refine .inr ⟨u, hu, ?_⟩
    split_ifs
    · exact htick u
    · rfl

/-- Settles O54: SET_KEY is one write of the keypad, and no instruction writes it, nor does the rest of a step. -/
theorem keypadWrittenOnlyByHost : Obligations.KeypadWrittenOnlyByHost := by
  refine ⟨fun k j down s => ⟨?_, rfl⟩, fun s t h => ?_⟩
  · simp only [hostSetKey, Vector.getElem_set, Fin.ext_iff, eq_comm]
  · obtain hkey | ⟨u, hu, hkey⟩ := step_next_projection State.key (fun _ => rfl) (fun _ _ _ _ => rfl) h
    · exact hkey
    · exact hkey.trans (exec_writesOnly hu).key

/-! ### DIRTY and DISP (R103, R104) -/

/-- A committed CLS or DXYN leaves DIRTY at 1. -/
theorem dirty_of_draw_commits {i : Instr} {s t : State} (hi : (∃ x, i = .cls x) ∨ ∃ x y n, i = .drw x y n)
    (h : exec i s = .next t) (ht : t.faultCode = 0) : t.dirty = true := by
  obtain ⟨x, rfl⟩ | ⟨x, y, n, rfl⟩ := hi
  · obtain rfl := Host.Outcome.next.inj h
    rfl
  · obtain ⟨-, rfl⟩ := commits_of_fault_or ((exec_drw_next x y n s t).1 h) ht
    rfl

/-- An instruction that enters a fault leaves the state but for the latch. -/
theorem takeFault_of_exec_faults {i : Instr} {s t : State} (hs : s.faultCode = 0) (h : exec i s = .next t)
    (ht : t.faultCode ≠ 0) : ∃ c info, t = s.takeFault c info (encode i) := by
  obtain hfault | hsame := exec_next_latch i s t h
  · exact hfault
  · exact absurd (hsame.1.trans hs) ht

/-- Settles O40: a fault leaves the screen, and of the committed instructions only CLS and DXYN write it. -/
theorem dirtySetOnlyByDraws : Obligations.DirtySetOnlyByDraws := by
  intro i s t hs h
  refine ⟨fun ht => ?faults, fun ht => ?commits⟩
  case faults =>
    obtain ⟨c, info, rfl⟩ := takeFault_of_exec_faults hs h ht
    exact ⟨rfl, rfl⟩
  case commits =>
    split
    next x => exact dirty_of_draw_commits (.inl ⟨x, rfl⟩) h ht
    next x y n => exact dirty_of_draw_commits (.inr ⟨x, y, n, rfl⟩) h ht
    next hcls hdrw =>
      obtain hsame | ⟨x, hi⟩ | ⟨x, y, n, hi⟩ := (exec_writesOnly h).screen
      · exact hsame
      · exact absurd hi (hcls x)
      · exact absurd hi (hdrw x y n)

/-- No instruction clears DIRTY. -/
theorem exec_keeps_dirty {i : Instr} {s t : State} (h : exec i s = .next t) (hd : s.dirty = true) : t.dirty = true := by
  obtain ⟨hsame, -⟩ | ⟨x, rfl⟩ | ⟨x, y, n, rfl⟩ := (exec_writesOnly h).screen
  · exact hsame.trans hd
  · obtain rfl := Host.Outcome.next.inj h
    rfl
  · obtain ⟨-, rfl⟩ | ⟨-, rfl⟩ := (exec_drw_next x y n s t).1 h
    · exact hd
    · rfl

theorem hostLoad_dirty (b : List Byte) (s : State) : (hostLoad b s).2.dirty = s.dirty := by
  unfold hostLoad
  split_ifs <;> rfl

/-- Settles O41: the host's two operations write 0 and the others nothing, an instruction leaves DIRTY or sets it, and
after a CLEAR_DIRTY it is set only if the committed instruction sets it. -/
theorem dirtyClearedOnlyByHost : Obligations.DirtyClearedOnlyByHost := by
  refine ⟨fun _ => rfl, fun _ _ => rfl, fun s t h hd => ?step, hostLoad_dirty, fun _ _ _ => rfl,
    fun s t hready h ht => ?cleared⟩
  case step =>
    obtain hsame | ⟨u, hu, hsame⟩ := step_next_projection State.dirty (fun _ => rfl) (fun _ _ _ _ => rfl) h
    · exact hsame.trans hd
    · exact hsame.trans (exec_keeps_dirty hu hd)
  case cleared =>
    obtain ⟨u, hu, rfl⟩ := exec_of_step_commits h ht
    refine ⟨fun hd => ?_, fun hi => (dirty_of_draw_commits hi hu ht : u.dirty = true)⟩
    obtain ⟨hsame, -⟩ | hi := (exec_writesOnly hu).screen
    · exact absurd (hsame.symm.trans hd) Bool.false_ne_true
    · exact hi

/-! ### The timer tick (R66, R121) -/

/-- DT as an instruction leaves it. -/
theorem exec_next_dt (i : Instr) (s t : State) :
    exec i s = .next t → t.dt = match i with | .ldDtV x => s.reg x | _ => s.dt := by
  intro h
  split
  next x =>
    obtain rfl := Host.Outcome.next.inj h
    rfl
  next hi =>
    obtain hsame | ⟨x, rfl⟩ := (exec_writesOnly h).dt
    · exact hsame
    · exact absurd rfl (hi x)

/-- ST as an instruction leaves it. -/
theorem exec_next_st_eq (i : Instr) (s t : State) :
    exec i s = .next t → t.st = match i with | .ldStV x => s.reg x | _ => s.st := by
  intro h
  split
  next x =>
    obtain rfl := Host.Outcome.next.inj h
    rfl
  next hi => exact exec_next_st hi h

/-- A step that leaves a fault latched on a running core entered it, and changed only the latch. -/
theorem takeFault_of_step_faults {s t : State} (hs : s.ready) (h : step s = .next t) (ht : t.faultCode ≠ 0) :
    ∃ c info, t = s.takeFault c info s.fetchWord := by
  rw [step_of_ready s hs, finishStep_eq_next] at h
  obtain ⟨u, hu, rfl⟩ := h
  by_cases hc : u.faultCode = 0
  · rw [if_pos hc] at ht
    exact absurd hc ht
  · rw [if_neg hc]
    obtain ⟨c, info, hu'⟩ := takeFault_of_exec_faults hs.1 hu hc
    exact ⟨c, info, encode_decode s.fetchWord ▸ hu'⟩

/-- Settles O14: a fault leaves the timers, and a committed step ends with one tick of the values that the instruction
left; one tick takes ST from 1, which sounds, to 0. -/
theorem timersTickOncePerStep : Obligations.TimersTickOncePerStep := by
  intro s t hs h
  refine ⟨fun ht => ?faults, fun ht => ?commits⟩
  case faults =>
    obtain ⟨c, info, rfl⟩ := takeFault_of_step_faults hs h ht
    exact ⟨rfl, rfl⟩
  case commits =>
    obtain ⟨u, hu, rfl⟩ := exec_of_step_commits h ht
    rw [tick_dt, tick_st, tickDown_toNat, tickDown_toNat, exec_next_dt _ _ _ hu, exec_next_st_eq _ _ _ hu]
    refine ⟨rfl, rfl, fun u' hu' hone => ?_⟩
    obtain rfl := Host.Outcome.next.inj (hu'.symm.trans hu)
    rw [sound_eq_true_iff, sound_eq_false_iff, tick_st, hone]
    decide

end Sys2Proof.Machine
end

section
/-! PROOFS. The fault family (spec/60_exceptions.md) and the step (spec/40_step_cycle.md R59): that every instruction
answers, which code it latches, and that a fault changes the latch only. -/

namespace Sys2Proof.Machine

/-! ### Every instruction answers (R55, R63) -/

theorem ite_raise_answers {b : Bool} {c : Cause} {info : Word} {i : Instr} {s u : State} :
    ∃ t, (if b then raise c info i s else .next u) = (.next t : Result) := by
  cases b <;> exact ⟨_, rfl⟩

/-- An instruction answers a next state, or it is CALL or RET in a state whose SP is above 16 and stops by name. -/
theorem exec_answers (i : Instr) (s : State) :
    (∃ t, exec i s = .next t) ∨ (16 < s.sp.toNat ∧ exec i s = .fault .stackPointerAbove16) := by
  cases i with
  | ret x =>
    by_cases h : 16 < s.sp.toNat
    · exact .inr ⟨h, exec_ret_of_sp_above x h⟩
    · by_cases h0 : s.sp = 0
      · exact .inl ⟨_, exec_ret_of_sp_zero x h0⟩
      · exact .inl ⟨_, exec_ret_of_sp_pos x s (by bv_omega)⟩
  | call nnn =>
    by_cases h : 16 < s.sp.toNat
    · exact .inr ⟨h, exec_call_of_sp_above nnn h⟩
    · by_cases h16 : s.sp = 16
      · exact .inl ⟨_, exec_call_of_sp_full nnn h16⟩
      · exact .inl ⟨_, exec_call_of_sp_lt nnn s (by bv_omega)⟩
  | drw | ldB | ldMemV | ldVMem => exact .inl ite_raise_answers
  | skp x =>
    by_cases h : (s.reg x).toNat < 16
    · exact .inl ⟨_, exec_skp_of_lt h⟩
    · exact .inl ⟨_, (keyIndexBeyondKeypadFaults x s (by omega)).1⟩
  | sknp x =>
    by_cases h : (s.reg x).toNat < 16
    · exact .inl ⟨_, exec_sknp_of_lt h⟩
    · exact .inl ⟨_, (keyIndexBeyondKeypadFaults x s (by omega)).2.1⟩
  | ldVK x =>
    by_cases h : (s.reg x).toNat < 16
    · exact .inl ⟨_, exec_ldVK_of_lt h⟩
    · exact .inl ⟨_, (keyIndexBeyondKeypadFaults x s (by omega)).2.2⟩
  | cls | jp | seImm | sneImm | seReg | ldImm | addImm | ldReg | orReg | andReg | xorReg | addReg | sub | shr | subn | shl
  | sneReg | ldI | jpV0 | rnd | ldVDt | ldDtV | ldStV | addI | ldF | sys | nop8 | nopE | nopF => exact .inl ⟨_, rfl⟩

theorem exec_next_of_sp_le (i : Instr) {s : State} (hsp : s.sp.toNat ≤ 16) : ∃ t, exec i s = .next t := by
  obtain hnext | ⟨habove, -⟩ := exec_answers i s
  · exact hnext
  · exact absurd hsp (Nat.not_le.2 habove)

theorem exec_ne_refused (i : Instr) (s : State) (r : Refusal) : exec i s ≠ .refused r := by
  obtain ⟨t, h⟩ | ⟨-, h⟩ := exec_answers i s <;> rw [h] <;> exact nofun

/-! ### One step (R59) -/

theorem fetchWord_eq_ofNat (s : State) : s.fetchWord = BitVec.ofNat 16 s.opcodeAtPc := by
  rw [← fetchWord_toNat, BitVec.ofNat_toNat, BitVec.setWidth_eq]

/-- Settles O7: the fetched word is the opcode, and the end of the step is the tick, nothing after a fault, and the
instruction's own stop. -/
theorem stepRunsDecodedInstruction : Obligations.StepRunsDecodedInstruction := by
  rintro s i hs rfl
  rw [← fetchWord_eq_ofNat]
  refine ⟨fun t h ht => step_of_exec_commits hs h ht, fun t h ht => ?faults, fun f h => ?stops,
    exec_ne_refused _ s⟩
  case faults =>
    rw [step_of_ready s hs, finishStep_eq_next]
    exact ⟨t, h, (if_neg ht).symm⟩
  case stops =>
    rw [step_of_ready s hs, h]
    rfl

/-- Settles O8: the halt check comes first. -/
theorem haltedStepChangesNothing : Obligations.HaltedStepChangesNothing := step_of_halted

/-- Settles O12: each of the four is the advance. -/
theorem noOpsOnlyAdvance : Obligations.NoOpsOnlyAdvance :=
  fun s nnn x y n nn => ⟨exec_sys nnn s, exec_nop8 x y n s, exec_nopE x nn s, exec_nopF x nn s⟩

/-! ### Which code an instruction latches (R112) -/

/-- The code that an instruction leaves on a running core, as a number: that of its one cause where the cause's condition
holds, else NONE. -/
def latchedCode (i : Instr) (s : State) : Nat :=
  match i with
  | .call _ => if s.sp.toNat = 16 then 1 else 0
  | .ret _ => if s.sp.toNat = 0 then 2 else 0
  | .drw _ _ n => if 0 < n.toNat ∧ 0xFFF < s.i.toNat + n.toNat - 1 then 4 else 0
  | .ldB _ => if 0xFFF < s.i.toNat + 2 then 4 else 0
  | .ldMemV x | .ldVMem x => if 0xFFF < s.i.toNat + x.val then 4 else 0
  | .skp x | .sknp x | .ldVK x => if 15 < (s.reg x).toNat then 5 else 0
  | _ => 0

/-- The two alternatives of an inversion lemma as one conditional: the cause's code, or the code as it was, which is NONE
on a running core. -/
theorem code_of_fault_or {p : Prop} [Decidable p] {c : Cause} {info op : Word} {s t : State} (hs : s.faultCode = 0)
    (h : (p ∧ t = s.takeFault c info op) ∨ (¬ p ∧ t.faultCode = s.faultCode)) :
    t.faultCode.toNat = if p then (causeCode c).toNat else 0 := by
  obtain ⟨hp, rfl⟩ | ⟨hp, hcode⟩ := h
  · rw [if_pos hp]
    rfl
  · rw [if_neg hp, hcode, hs]
    rfl

/-- The range check of a transfer of k + 1 bytes, as the statements write it. -/
theorem outOfRange_succ_cases {s : State} {k : Nat} {p q : Prop}
    (h : (s.outOfRange (k + 1) = true ∧ p) ∨ (s.outOfRange (k + 1) = false ∧ q)) :
    (0xFFF < s.i.toNat + k ∧ p) ∨ (¬ 0xFFF < s.i.toNat + k ∧ q) := by
  rw [outOfRange_eq_true, outOfRange_eq_false] at h
  exact h.imp (And.imp_left fun hr => by omega) (And.imp_left fun hr => by omega)

/-- A key instruction's alternatives with the same code left where a key is read. -/
theorem keyRange_cases {s t : State} {k : Byte} {p : Prop} {f : k.toNat < 16 → State}
    (h : (15 < k.toNat ∧ p) ∨ ∃ hk, t = f hk) (hf : ∀ hk, (f hk).faultCode = s.faultCode) :
    (15 < k.toNat ∧ p) ∨ (¬ 15 < k.toNat ∧ t.faultCode = s.faultCode) :=
  h.imp_right fun ⟨hk, ht⟩ => ⟨by omega, ht ▸ hf hk⟩

theorem exec_next_code {i : Instr} {s t : State} (hs : s.faultCode = 0) (h : exec i s = .next t) :
    t.faultCode.toNat = latchedCode i s := by
  cases i with
  | call nnn =>
    refine code_of_fault_or hs (((exec_call_next nnn s t).1 h).imp (And.imp_left (congrArg BitVec.toNat)) ?_)
    rintro ⟨hne, u, hu, rfl⟩
    obtain ⟨-, rfl⟩ := (pushReturn_eq_some _ _).1 hu
    exact ⟨mt BitVec.eq_of_toNat_eq hne, rfl⟩
  | ret x =>
    refine code_of_fault_or hs (((exec_ret_next x s t).1 h).imp (And.imp_left (congrArg BitVec.toNat)) ?_)
    rintro ⟨hne, hpop⟩
    obtain ⟨-, rfl⟩ := (popReturn_eq_some _ _).1 hpop
    exact ⟨mt BitVec.eq_of_toNat_eq hne, rfl⟩
  | drw x y n =>
    refine code_of_fault_or hs (((exec_drw_next x y n s t).1 h).imp (And.imp_left fun hr => ?_)
      (And.imp (fun hr => ?_) fun ht => by rw [ht]; rfl))
    · rw [outOfRange_eq_true] at hr
      omega
    · rw [outOfRange_eq_false] at hr
      omega
  | ldB x =>
    exact code_of_fault_or hs ((outOfRange_succ_cases ((exec_ldB_next x s t).1 h)).imp_right
      (And.imp_right fun ht => by rw [ht]; rfl))
  | ldMemV x =>
    exact code_of_fault_or hs ((outOfRange_succ_cases ((exec_ldMemV_next x s t).1 h)).imp_right
      (And.imp_right fun ht => by rw [ht]; rfl))
  | ldVMem x =>
    exact code_of_fault_or hs ((outOfRange_succ_cases ((exec_ldVMem_next x s t).1 h)).imp_right
      (And.imp_right fun ht => ht ▸ loadRegs_faultCode s.advance x))
  | skp x => exact code_of_fault_or hs (keyRange_cases ((exec_skp_next x s t).1 h) fun _ => skipIf_faultCode s.advance _)
  | sknp x => exact code_of_fault_or hs (keyRange_cases ((exec_sknp_next x s t).1 h) fun _ => skipIf_faultCode s.advance _)
  | ldVK x => exact code_of_fault_or hs (keyRange_cases ((exec_ldVK_next x s t).1 h) fun _ => rfl)
  | seImm | sneImm | seReg | sneReg =>
    obtain rfl := Host.Outcome.next.inj h
    rw [skipIf_faultCode, advance_faultCode, hs]
    rfl
  | cls | jp | ldImm | addImm | ldReg | orReg | andReg | xorReg | addReg | sub | shr | subn | shl | ldI | jpV0 | rnd
  | ldVDt | ldDtV | ldStV | addI | ldF | sys | nop8 | nopE | nopF =>
    obtain rfl := Host.Outcome.next.inj h
    exact congrArg BitVec.toNat hs

/-- A step that fetches leaves the code that its instruction leaves. -/
theorem step_code_of_exec {s u : State} (hs : s.ready) (h : exec (decode s.fetchWord) s = .next u) :
    ∃ t, step s = .next t ∧ t.faultCode = u.faultCode := by
  refine ⟨if u.faultCode = 0 then u.tick else u, ?_, ?_⟩
  · rw [step_of_ready s hs, finishStep_eq_next]
    exact ⟨u, h, rfl⟩
  · split_ifs <;> rfl

/-- Settles O48: a fetch that would leave memory latches 3; else the instruction answers, since SP is at most 16, and
latches its own code. -/
theorem faultCausesExactly : Obligations.FaultCausesExactly := by
  intro s hinv hs
  by_cases hpc : 0xFFF < s.pc.toNat + 1
  · rw [if_pos hpc]
    exact ⟨_, fetchBeyondMemoryFaults s hs (by omega), rfl⟩
  · rw [if_neg hpc]
    obtain ⟨u, hu⟩ := exec_next_of_sp_le (decode s.fetchWord) hinv.sp_le
    obtain ⟨t, ht, hcode⟩ := step_code_of_exec ⟨hs, by omega⟩ hu
    exact ⟨t, ht, hcode ▸ exec_next_code hs hu⟩

/-- FETCH_RANGE is no instruction's code. -/
theorem latchedCode_ne_three (i : Instr) (s : State) : latchedCode i s ≠ 3 := by
  unfold latchedCode
  split <;> (try split_ifs) <;> decide

/-! ### A fault is precise (R114, R115) -/

/-- Fault entry on a running core, undone by clearing the code and giving the rest of the latch back. -/
theorem takeFault_frame {s : State} (hs : s.faultCode = 0) (c : Cause) (info op : Word) :
    { s.takeFault c info op with
      faultCode := 0, faultPc := s.faultPc, faultOp := s.faultOp, faultInfo := s.faultInfo } = s := by
  rw [← hs]
  rfl

/-- Settles O47: the fault is FETCH_RANGE before any fetch, or entered by the instruction fetched, whose encoding is the
opcode at PC, with another code. -/
theorem faultIsPrecise : Obligations.FaultIsPrecise := by
  intro s t hs h ht
  by_cases hready : s.ready
  · obtain ⟨c, info, rfl⟩ := takeFault_of_step_faults hready h ht
    refine ⟨takeFault_frame hs c info _, rfl, fun hcode => ?_, fun _ => ⟨hready, fetchWord_toNat s⟩⟩
    rw [step_of_ready s hready, finishStep_eq_next] at h
    obtain ⟨u, hu, heq⟩ := h
    have hsame : u.faultCode = 3 := by
      rw [← hcode, heq]
      split_ifs <;> rfl
    exact absurd ((exec_next_code hs hu).symm.trans (congrArg BitVec.toNat hsame)) (latchedCode_ne_three _ s)
  · have hpc : 0xFFF < s.pc.toNat + 1 := Nat.lt_of_not_le fun hle => hready ⟨hs, hle⟩
    rw [fetchBeyondMemoryFaults s hs (by omega)] at h
    obtain rfl := Host.Outcome.next.inj h
    exact ⟨takeFault_frame hs .fetchRange s.pc 0, rfl, fun _ => ⟨rfl, rfl, hpc⟩, fun hne => absurd rfl hne⟩

/-! ### What is no fault (R113) -/

/-- Settles O49: each of the other instructions answers a next state with the same latch, a draw whose sprite stays in
memory commits wherever its pixels fall, and a rejected LOAD answers the state it was given. -/
theorem onlyNamedInstructionsFault : Obligations.OnlyNamedInstructionsFault := by
  refine ⟨fun op s => ?instructions, fun x y n s h => ?draw, fun b s h => ?load⟩
  case instructions =>
    cases decode op with
    | call | ret | drw | ldB | ldMemV | ldVMem | skp | sknp | ldVK => trivial
    | seImm | sneImm | seReg | sneReg => exact ⟨_, rfl, sameLatch_skip s _⟩
    | cls | jp | ldImm | addImm | ldReg | orReg | andReg | xorReg | addReg | sub | shr | subn | shl | ldI | jpV0 | rnd
    | ldVDt | ldDtV | ldStV | addI | ldF | sys | nop8 | nopE | nopF => exact ⟨_, rfl, rfl, rfl, rfl, rfl⟩
  case draw => exact ⟨_, exec_drw_of_inside x y (by omega), rfl⟩
  case load =>
    rw [hostLoad_of_gt s h]
    exact ⟨rfl, rfl⟩

end Sys2Proof.Machine
end

section
/-! PROOFS. The invariant (spec/10_state.md R15, R19, R30): it holds after RESET, and every step and every host operation
keeps it. -/

namespace Sys2Proof.Machine

/-! ### The invariant through the parts of a step -/

theorem inv_takeFault {s : State} (hs : s.Inv) (c : Cause) (info op : Word) : (s.takeFault c info op).Inv where
  mem_wf := hs.mem_wf
  sp_le := hs.sp_le
  code_le := (causeCode_range c).2
  latch_clear h := absurd h (takeFault_faultCode_ne_zero s c info op)

theorem inv_tick {s : State} (hs : s.Inv) : s.tick.Inv := ⟨hs.mem_wf, hs.sp_le, hs.code_le, hs.latch_clear⟩

/-- Of the two writers of memory each writes a sequence of bytes, which keeps the canonical form. -/
theorem exec_keeps_mem_wf {i : Instr} {s t : State} (hs : s.mem.wf = true) (h : exec i s = .next t) :
    t.mem.wf = true := by
  obtain hsame | ⟨x, rfl⟩ | ⟨x, rfl⟩ := (exec_writesOnly h).mem
  · rwa [hsame]
  · obtain ⟨-, rfl⟩ | ⟨-, rfl⟩ := (exec_ldB_next x s t).1 h
    · exact hs
    · exact wf_writeBytes _ _ hs _
  · obtain ⟨-, rfl⟩ | ⟨-, rfl⟩ := (exec_ldMemV_next x s t).1 h
    · exact hs
    · exact wf_writeBytes _ _ hs _

/-- Of the two writers of SP, CALL pushes only below 16 and RET pops only above 0. -/
theorem exec_keeps_sp_le {i : Instr} {s t : State} (hs : s.sp.toNat ≤ 16) (h : exec i s = .next t) :
    t.sp.toNat ≤ 16 := by
  obtain ⟨hsame, -⟩ | ⟨nnn, rfl⟩ | ⟨x, rfl⟩ := (exec_writesOnly h).stack
  · rwa [hsame]
  · obtain ⟨-, rfl⟩ | ⟨-, u, hu, rfl⟩ := (exec_call_next nnn s t).1 h
    · exact hs
    · obtain ⟨hlt, rfl⟩ := (pushReturn_eq_some _ _).1 hu
      rw [advance_sp] at hlt
      simp only [setPc_sp, advance_sp]
      bv_omega
  · obtain ⟨-, rfl⟩ | ⟨hne, hpop⟩ := (exec_ret_next x s t).1 h
    · exact hs
    · obtain ⟨-, rfl⟩ := (popReturn_eq_some _ _).1 hpop
      have hsub := sp_sub_one_toNat hne
      simp only [advance_sp, hsub]
      omega

theorem exec_keeps_inv {i : Instr} {s t : State} (hs : s.Inv) (h : exec i s = .next t) : t.Inv := by
  obtain ⟨c, info, rfl⟩ | ⟨hcode, hpc, hop, hinfo⟩ := exec_next_latch i s t h
  · exact inv_takeFault hs c info _
  · refine ⟨exec_keeps_mem_wf hs.mem_wf h, exec_keeps_sp_le hs.sp_le h, ?_, ?_⟩
    · rw [hcode]
      exact hs.code_le
    · rw [hcode, hpc, hop, hinfo]
      exact hs.latch_clear

/-- Settles O59: a halted core keeps its state, fault entry latches a code of R112, and an instruction keeps the
invariant, as the tick after it does. -/
theorem stepKeepsInvariant : Obligations.StepKeepsInvariant := by
  intro s t hs h
  obtain ⟨-, rfl⟩ | ⟨-, -, rfl⟩ | ⟨-, u, hu, rfl⟩ := (step_eq_next s t).1 h
  · exact hs
  · exact inv_takeFault hs .fetchRange s.pc 0
  · have hinv := exec_keeps_inv hs hu
    split_ifs
    · exact inv_tick hinv
    · exact hinv

/-! ### RESET and the host's operations (R26, R127) -/

theorem inv_reset : State.reset.Inv where
  mem_wf := reset_mem_wf
  sp_le := by decide
  code_le := by decide
  latch_clear _ := ⟨rfl, rfl, rfl⟩

theorem inv_hostReset (font : Vector Byte 80) (s : State) : (hostReset font s).Inv where
  mem_wf := wf_writeBytes _ _ reset_mem_wf 0
  sp_le := inv_reset.sp_le
  code_le := inv_reset.code_le
  latch_clear _ := ⟨rfl, rfl, rfl⟩

/-- Settles O58: RESET writes its font into the memory of `State.reset`. -/
theorem resetMeetsInvariant : Obligations.ResetMeetsInvariant := ⟨inv_reset, inv_hostReset⟩

theorem inv_setMem {s : State} (hs : s.Inv) {m : Memory} (hm : m.wf = true) : (s.setMem m).Inv :=
  ⟨hm, hs.sp_le, hs.code_le, hs.latch_clear⟩

theorem inv_hostLoad {s : State} (hs : s.Inv) (b : List Byte) : (hostLoad b s).2.Inv := by
  unfold hostLoad
  split_ifs
  · exact inv_setMem hs (wf_writeBytes _ _ hs.mem_wf _)
  · exact hs

/-- A step from a state that meets the invariant never stops the model. -/
theorem step_answers {s : State} (hs : s.Inv) : ∃ t, step s = .next t := by
  by_cases h : s.faultCode = 0
  · obtain ⟨t, ht, -⟩ := faultCausesExactly s hs h
    exact ⟨t, ht⟩
  · exact ⟨s, step_of_halted s h⟩

/-- Settles O60, operation by operation. -/
theorem hostOperationsKeepInvariant : Obligations.HostOperationsKeepInvariant := by
  intro op s hs
  cases op with
  | reset font => exact ⟨_, rfl, inv_hostReset font s⟩
  | load b => exact ⟨_, rfl, inv_hostLoad hs b⟩
  | step =>
    obtain ⟨t, ht⟩ := step_answers hs
    exact ⟨t, ht, stepKeepsInvariant s t hs ht⟩
  | setKey | clearDirty => exact ⟨_, rfl, hs.mem_wf, hs.sp_le, hs.code_le, hs.latch_clear⟩

end Sys2Proof.Machine
end

section
/-! PROOFS. The reset and hazards family (spec/70_reset_and_hazards.md), the state after RESET and the LOAD that is
accepted; and the listing (spec/30_encoding.md R58). -/

namespace Sys2Proof.Machine

/-! ### The state after RESET (R127, R129) -/

/-- An address beyond the font reads as 0 where the memory does not list it. -/
theorem unlisted_of_font_le {a : Nat} (h : 0x50 ≤ a) : Memory.unlisted a = 0 :=
  List.getD_eq_default defaultFont 0 h

theorem hostReset_mem_read_of_font_le (font : Vector Byte 80) (s : State) {a : Nat} (h : 0x50 ≤ a) :
    (hostReset font s).mem.read a = 0 := by
  have hlen : font.toList.length = 80 := font.length_toList
  have hfits : 0 + font.toList.length ≤ Config.memSize := by
    rw [hlen]
    decide
  rw [hostReset_mem, read_writeBytes_outside reset_mem_wf hfits (.inr (by omega))]
  exact unlisted_of_font_le h

/-- Both states after RESET are `State.reset` but for the memory, which holds 0 beyond the font, and the counter. -/
theorem reset_shape {t : State} (h : t = State.reset ∨ ∃ (font : Vector Byte 80) (s : State), t = hostReset font s) :
    ∃ (m : Memory) (c : Nat), t = { State.reset with mem := m, rndCount := c } ∧ ∀ a, 0x50 ≤ a → m.read a = 0 := by
  obtain rfl | ⟨font, s, rfl⟩ := h
  · exact ⟨[], 0, rfl, fun a ha => unlisted_of_font_le ha⟩
  · exact ⟨_, s.rndCount, rfl, fun a ha => hostReset_mem_read_of_font_le font s ha⟩

/-- Settles O50: each element is read off `State.reset`, whose vectors repeat one value; the memory is the font and 0
beyond it. -/
theorem resetValues : Obligations.ResetValues := by
  refine ⟨fun t ht => ?elements, fun font s a h => hostReset_mem_read font s a h, rfl⟩
  case elements =>
    obtain ⟨m, c, rfl, hm⟩ := reset_shape ht
    exact ⟨fun k => Vector.getElem_replicate k.isLt, rfl, rfl, rfl, fun k hk => Vector.getElem_replicate hk, rfl, rfl,
      fun px py _ _ => cell_clear px py, fun k hk => Vector.getElem_replicate hk, rfl, rfl, rfl, rfl, rfl,
      fun a ha _ => hm a ha⟩

/-! ### LOAD of a buffer of at most MAX_ROM bytes (R130) -/

theorem hostLoad_of_le {b : List Byte} (s : State) (h : b.length ≤ 3584) :
    hostLoad b s = (.accepted, s.setMem (s.mem.writeBytes 0x200 b)) :=
  if_pos h

/-- Settles O52: the buffer is one sequence of writes from 0x200 on, which ends inside memory. -/
theorem loadCopiesProgram : Obligations.LoadCopiesProgram := by
  intro b s hinv h
  have hfits : 0x200 + b.length ≤ Config.memSize := by
    rw [Config.memSize]
    omega
  rw [hostLoad_of_le s h]
  exact ⟨rfl, rfl, fun k hk => read_writeBytes_inside hinv.mem_wf hfits hk,
    fun a ha => read_writeBytes_outside hinv.mem_wf hfits ha⟩

/-! ### The listing (R58) -/

/-- One line per two bytes. -/
theorem length_listing (off : Nat) (b : List Byte) : (listing off b).length = b.length / 2 := by
  induction off, b using listing.induct with
  | case1 off hi lo rest ih =>
    rw [listing, List.length_cons, ih, List.length_cons, List.length_cons]
    omega
  | case2 => simp [listing]
  | case3 => rfl

/-- Line k is that of the word at byte offset 2k from where the listing starts. -/
theorem getElem?_listing (off : Nat) (b : List Byte) (k : Nat) (h : 2 * k + 1 < b.length) :
    (listing off b)[k]? = some (listingLine (off + 2 * k) (wordOfBytes b[2 * k] b[2 * k + 1])) := by
  induction off, b using listing.induct generalizing k with
  | case1 off hi lo rest ih =>
    rw [listing]
    cases k with
    | zero => rfl
    | succ k =>
      simp only [List.length_cons] at h
      rw [List.getElem?_cons_succ, ih k (by omega), Nat.add_assoc, Nat.add_comm 2]
      rfl
  | case2 => simp at h
  | case3 => simp at h

/-- Settles O55: the two examples are closed lines, each computed; the rest is the listing from offset 0. -/
theorem listingLines : Obligations.ListingLines := by
  refine ⟨by decide, by decide, fun b => ⟨length_listing 0 b, fun k h => ?_⟩⟩
  rw [getElem?_listing, Nat.zero_add]

end Sys2Proof.Machine
end
